-- ==== Sys2Proof/Word.lean ====
section
/-! DEFINITION. Word.lean: the machine's data word. The spec calls the set of W-bit signed values `SW` (00_scope.md R13)
and does all its arithmetic on mathematical integers that a rule then narrows, so a word (a value of AX, BX, CX, DX, AC, PC
or of one memory word) is an `Int`, and `inSW` is the range it has in every state that satisfies `State.Inv`
(10_state.md R31, R33, R35, R36; 41_register_ops.md R161; log entry 1). -/

namespace Sys2Proof

/-- A line of source text, a label or a displayed string, as its characters (10_state.md R37, R44). -/
abbrev Text := List Char

/-- `2^(W-1)`: the first integer above the W-bit signed range (00_scope.md R13). -/
def halfRange (w : Nat) : Int := ((2 ^ (w - 1) : Nat) : Int)

/-- `n ∈ SW`, that is `-2^(W-1) ≤ n ≤ 2^(W-1) - 1` (00_scope.md R13). -/
def inSW (w : Nat) (n : Int) : Bool := decide (-halfRange w ≤ n ∧ n < halfRange w)

end Sys2Proof
end

