-- ==== Sys2Proof/Config.lean ====
section
/-! DEFINITION. Config.lean: the implementation parameters of 00_scope.md R8, as one record that the machine carries
(log entry 2), their default values, and the free values. -/

namespace Sys2Proof

/-- `OVF_MODE`: what ADD and SUB leave in AC outside the W-bit range (41_register_ops.md R160). -/
inductive OvfMode where
  | any   -- a draw
  | wrap  -- two's complement
  deriving DecidableEq, Repr

/-- `IMM_PRESENCE`: how MOV-with-immediate is recognised (30_encoding.md R119). -/
inductive ImmPresence where
  | token    -- a third token was present
  | nonzero  -- the immediate is not zero
  deriving DecidableEq, Repr

/-- `FIRST_AT_LOAD`: whether a first instruction that is not MOV-with-immediate executes at load
(60_exceptions.md R205). -/
inductive FirstAtLoad where
  | skip
  | execute
  deriving DecidableEq, Repr

/-- The parameters of 00_scope.md R8, one field each. -/
structure Config where
  /-- `W`, the width in bits of the registers, of PC and of a memory word. -/
  width : Nat
  /-- `MIN_SIZE`, the least legal memory size. -/
  minSize : Nat
  /-- `MIN_OS`, the least OS region CONFIGURE accepts. -/
  minOs : Nat
  /-- `MIN_USER`, the least User region CONFIGURE accepts. -/
  minUser : Nat
  /-- `RESIZE_MIN_OS`, the lower bound of the OS size RESIZE computes. -/
  resizeMinOs : Nat
  /-- `RESIZE_DIV`, the divisor of the OS size RESIZE computes. -/
  resizeDiv : Nat
  /-- `IMM_MAX`, the magnitude clamp of IMM8. -/
  immMax : Nat
  /-- `MAX_SIZE`, the greatest legal memory size (OPEN). -/
  maxSize : Nat
  /-- `SIZE0`, the memory size at power-on (OPEN). -/
  size0 : Nat
  /-- `OS_SIZE0`, the OS size at power-on (OPEN). -/
  osSize0 : Nat
  ovfMode : OvfMode
  immPresence : ImmPresence
  firstAtLoad : FirstAtLoad
  deriving DecidableEq, Repr

/-- The defaults of 00_scope.md R8. The three parameters the spec leaves OPEN have no default there:
`maxSize`, `size0` and `osSize0` are DESIGN CHOICES (log entry 3), so no statement rests on their values. -/
def Config.default : Config where
  width := 32
  minSize := 20
  minOs := 5
  minUser := 10
  resizeMinOs := 10
  resizeDiv := 5
  immMax := 127
  maxSize := 2147483647
  size0 := 20
  osSize0 := 5
  ovfMode := .any
  immPresence := .token
  firstAtLoad := .skip

/-- `any_W()` of 00_scope.md R12: the W-bit value of the `draw`-th draw. It has no body, so nothing is known of it
but that it is a W-bit value (log entry 4). -/
opaque Config.freeWord (w : Nat) (draw : Nat) : BitVec w

/-- Whether `snapshot` shows the value field of a word as "empty" (20_memory.md R67, 92_eei_decisions.md D32): the spec
does not say when, so it is free; no rule reads it (log entry 5). -/
opaque Config.snapshotValueEmpty (address : Nat) (label : Text) (value : Int) : Bool

end Sys2Proof
end

