-- ==== Sys2Proof/Syntax.lean ====
section
/-! DEFINITION. Syntax.lean: registers, operations, instructions, and the instruction objects the sequencer holds. -/

namespace Sys2Proof

/-- The four addressable registers (10_state.md R31, R51). -/
inductive Reg where
  | AX
  | BX
  | CX
  | DX
  deriving DecidableEq, Repr

/-- The five operations of the operation nibble (30_encoding.md R92). -/
inductive Operation where
  | load
  | store
  | mov
  | sub
  | add
  deriving DecidableEq, Repr

/-- The instructions, one constructor per row of opcode_table.json. `movImm` has the code of `mov`; the side-band
immediate tells the two apart (30_encoding.md R103). -/
inductive Instr where
  | load (r : Reg)
  | store (r : Reg)
  | mov (r : Reg)
  | sub (r : Reg)
  | add (r : Reg)
  | movImm (r : Reg) (v : Int)
  deriving DecidableEq, Repr

/-- The execute-side input bundle: an 8-bit code and the side-band immediate (30_encoding.md R103). -/
structure Issue where
  code : BitVec 8
  imm : Option Int
  deriving DecidableEq, Repr

/-- An instruction object: what the parser makes of one source line and the program list holds (10_state.md R44), with
the line itself, which program loading writes as the label (70_reset_and_hazards.md R230, R231). -/
structure InstrObject where
  op : Operation
  reg : Reg
  imm : Option Int
  code : BitVec 8
  text : Text
  deriving DecidableEq, Repr

end Sys2Proof
end

