-- ==== Sys2Proof/WellFormed.lean ====
section
/-! DEFINITION. WellFormed.lean: the checks on parameters and on instructions. -/

namespace Sys2Proof

/-- RESIZE keeps the configuration invariant of 10_state.md R40: 20_memory.md R65 says so for the default values, and
these are the conditions on the parameters under which it does (log entry 14). -/
def Config.resizeSound (c : Config) : Bool :=
  decide (2 ≤ c.resizeDiv ∧ c.minOs ≤ c.resizeMinOs ∧ c.resizeMinOs + c.minUser ≤ c.minSize ∧
    2 * c.minUser ≤ c.minSize)

/-- The power-on configuration is one CONFIGURE accepts (00_scope.md R8, 70_reset_and_hazards.md R220). -/
def Config.powerOnSound (c : Config) : Bool :=
  decide (1 ≤ c.size0 ∧ 1 ≤ c.osSize0 ∧ c.minSize ≤ c.size0 ∧ c.minOs ≤ c.osSize0 ∧
    c.osSize0 + c.minUser ≤ c.size0 ∧ c.size0 ≤ c.maxSize)

/-- The parameters make sense together: a code fits a word (20_memory.md R70), every address is a word
(92_eei_decisions.md D22: `MAX_SIZE < 2^(W-1)`), the IMM8 magnitude fits seven bits (30_encoding.md R100); log entry 14. -/
def Config.wf (c : Config) : Bool :=
  decide (9 ≤ c.width) && decide ((c.maxSize : Int) < halfRange c.width) && decide (c.immMax ≤ 127) &&
    c.resizeSound && c.powerOnSound

/-- An instruction is well formed when its immediate is a W-bit value (30_encoding.md R114); its register is one of the
four by its type. -/
def Instr.wf (c : Config) : Instr → Bool
  | .load _ => true
  | .store _ => true
  | .mov _ => true
  | .sub _ => true
  | .add _ => true
  | .movImm _ v => inSW c.width v

end Sys2Proof
end

