-- ==== Sys2Proof/Decode.lean ====
section
/-! DEFINITION. Decode.lean: the nibble tables, the decoder (total on all 256 codes, rejecting by name) and the encoder
(30_encoding.md sections 1 to 3). -/

namespace Sys2Proof

/-- Why a code does not decode (30_encoding.md R96). -/
inductive DecodeError where
  | badOpcode    -- BAD_OPCODE: code[7:4] names no operation
  | badRegister  -- BAD_REGISTER: a legal operation, and code[3:0] names no register
  deriving DecidableEq, Repr

/-- The field `op`, `code[7:4]` (30_encoding.md R91). -/
def opField (code : BitVec 8) : BitVec 4 := code.extractLsb' 4 4

/-- The field `r`, `code[3:0]` (30_encoding.md R91). -/
def regField (code : BitVec 8) : BitVec 4 := code.extractLsb' 0 4

/-- The operation nibble table, read (30_encoding.md R92). -/
def opOf (n : BitVec 4) : Option Operation :=
  if n = 0b0001#4 then some .load
  else if n = 0b0010#4 then some .store
  else if n = 0b0011#4 then some .mov
  else if n = 0b0100#4 then some .sub
  else if n = 0b0101#4 then some .add
  else none

/-- The register nibble table, read (30_encoding.md R93). -/
def regOf (n : BitVec 4) : Option Reg :=
  if n = 0b0001#4 then some .AX
  else if n = 0b0010#4 then some .BX
  else if n = 0b0011#4 then some .CX
  else if n = 0b0100#4 then some .DX
  else none

/-- `decode` of 30_encoding.md R96: the operation nibble is looked at first (92_eei_decisions.md D8). -/
def decode (code : BitVec 8) : Except DecodeError (Operation × Reg) :=
  match opOf (opField code) with
  | none => .error .badOpcode
  | some op =>
    match regOf (regField code) with
    | none => .error .badRegister
    | some r => .ok (op, r)

/-- The instruction an issued bundle is: with a side-band immediate a MOV code is MOV-with-immediate, and any other
operation ignores the immediate (30_encoding.md R103, R119; 92_eei_decisions.md D4, D28). -/
def instrOf (imm : Option Int) : Operation → Reg → Instr
  | .load, r => .load r
  | .store, r => .store r
  | .sub, r => .sub r
  | .add, r => .add r
  | .mov, r =>
    match imm with
    | none => .mov r
    | some v => .movImm r v

/-- Decodes an issued bundle (30_encoding.md R103). -/
def decodeIssue (i : Issue) : Except DecodeError Instr :=
  match decode i.code with
  | .error e => .error e
  | .ok (op, r) => .ok (instrOf i.imm op r)

/-- The operation nibble table, written (30_encoding.md R92, R94). -/
def opNibble : Operation → BitVec 4
  | .load => 0b0001#4
  | .store => 0b0010#4
  | .mov => 0b0011#4
  | .sub => 0b0100#4
  | .add => 0b0101#4

/-- The register nibble table, written (30_encoding.md R93, R94). -/
def regNibble : Reg → BitVec 4
  | .AX => 0b0001#4
  | .BX => 0b0010#4
  | .CX => 0b0011#4
  | .DX => 0b0100#4

/-- `encode(operation, register)` of 30_encoding.md R94: `opNibble ++ regNibble`. -/
def encodeOp (op : Operation) (r : Reg) : BitVec 8 := opNibble op ++ regNibble r

/-- The operation whose code an instruction carries. -/
def Instr.operation : Instr → Operation
  | .load _ => .load
  | .store _ => .store
  | .mov _ => .mov
  | .sub _ => .sub
  | .add _ => .add
  | .movImm _ _ => .mov

/-- The register an instruction names. -/
def Instr.register : Instr → Reg
  | .load r => r
  | .store r => r
  | .mov r => r
  | .sub r => r
  | .add r => r
  | .movImm r _ => r

/-- The one code word of an instruction (30_encoding.md R90, R94, R103). -/
def Instr.code (i : Instr) : BitVec 8 := encodeOp i.operation i.register

/-- The side-band immediate of an instruction: only MOV-with-immediate has one (30_encoding.md R103). -/
def Instr.sideband : Instr → Option Int
  | .load _ => none
  | .store _ => none
  | .mov _ => none
  | .sub _ => none
  | .add _ => none
  | .movImm _ v => some v

/-- The encoder: the bundle an instruction is issued as, its code and its side-band immediate. -/
def encode (i : Instr) : Issue := { code := i.code, imm := i.sideband }

/-- The instruction the decoder reads from a table row's word. The table gives every row 8 bits and no side-band, so the
word of the row MOV_IMM decodes to MOV: the 8 bits cannot tell the two apart (opcode_table.json; log entry 8). -/
def decodeTableWord (nbits w : Nat) : Option Instr :=
  if nbits = 8 ∧ w < 256 then
    match decodeIssue { code := BitVec.ofNat 8 w, imm := none } with
    | .ok i => some i
    | .error _ => none
  else none

/-- The value of a bit string, its first bit the most significant (00_scope.md R11; 40_execute.md R132). -/
def bitsValue (bits : List Bool) : Nat :=
  bits.foldl (fun n b => 2 * n + (if b then 1 else 0)) 0

/-- The bit string of a code, most significant bit first (00_scope.md R11, 30_encoding.md R94). -/
def codeBits (code : BitVec 8) : List Bool :=
  [code.getLsbD 7, code.getLsbD 6, code.getLsbD 5, code.getLsbD 4,
   code.getLsbD 3, code.getLsbD 2, code.getLsbD 1, code.getLsbD 0]

end Sys2Proof
end

