-- ==== Sys2Proof/Machine/State.lean ====
section
/-! DEFINITION. Machine/State.lean: everything the spec gives the machine, as plain data, and the state at power-on. -/

namespace Sys2Proof.Machine

/-- The values of `runState` (10_state.md R43). RUNNING is no value of its own: it is STEPPING while `running` holds. -/
inductive RunState where
  | idle
  | loaded
  | stepping
  | halted
  | completed
  deriving DecidableEq, Repr

/-- The ExecutionFaults (60_exceptions.md R180, codes 1 to 4). -/
inductive ExecFault where
  | E_LEN         -- code 1: a presented code whose length is not 8
  | E_OPCODE      -- code 2: the operation nibble names no operation
  | E_REG         -- code 3: the register nibble names no register
  | E_STORE_PROT  -- code 4: a STORE target outside the User region
  deriving DecidableEq, Repr

/-- The region of an address (10_state.md R41). -/
inductive Region where
  | os
  | user
  deriving DecidableEq, Repr

/-- A sparse array: pairs of an address and its content, in the canonical form `Cells.wf` (Machine/Ops.lean). The unit is
one whole word, the only unit the spec addresses (20_memory.md R70; log entry 6). -/
abbrev Cells (α : Type) := List (Nat × α)

/-- The whole state (the record at the head of 10_state.md), and two fields of the model's own: `cfg` and `drawCount`. -/
structure State where
  /-- General register AX (10_state.md R31). -/
  AX : Int
  /-- General register BX (10_state.md R31). -/
  BX : Int
  /-- General register CX (10_state.md R31). -/
  CX : Int
  /-- General register DX (10_state.md R31). -/
  DX : Int
  /-- The accumulator (10_state.md R33). -/
  AC : Int
  /-- The instruction register, unsigned 0 to 255 (10_state.md R34). -/
  IR : BitVec 8
  /-- The program counter: a counter that nothing fetches at (10_state.md R35, 40_execute.md R140). -/
  PC : Int
  /-- The number of words of the memory (10_state.md R38). -/
  size : Nat
  /-- The number of words of the OS region (10_state.md R38). -/
  osSize : Nat
  /-- The memory words that are not 0 (10_state.md R36). -/
  mem : Cells Int
  /-- The labels that are not empty (10_state.md R37). -/
  labels : Cells Text
  /-- The sequencer's run state (10_state.md R43). -/
  runState : RunState
  /-- The program list that fetch reads (10_state.md R44, 20_memory.md R74). -/
  program : List InstrObject
  /-- The sequencer's cursor into `program` (10_state.md R44). -/
  currentIndex : Nat
  /-- The auto-run flag (10_state.md R45). -/
  running : Bool
  /-- The reason of the fault that halted the run (10_state.md R46). -/
  lastFault : Option ExecFault
  /-- The model's own: the parameters of 00_scope.md R8, which nothing ever writes (log entry 2). -/
  cfg : Config
  /-- The model's own: how many free values have been drawn (00_scope.md R12, log entry 4). -/
  drawCount : Nat
  deriving DecidableEq, Repr

/-- Why a step can stop with a fault. There is no constructor: every fault of the spec is an ExecutionFault, whose entry
60_exceptions.md R184 describes, so it is taken, as a next state (log entry 10). Safe. -/
inductive Fault where
  deriving DecidableEq, Repr

/-- Why a step can be refused. -/
inductive Refusal where
  /-- An arm of `exec` whose instruction has no meaning yet raises it; no arm does. Safe. -/
  | notModelled (mnemonic : String)
  /-- NOT_RUNNABLE: `step` raises it in IDLE, HALTED and COMPLETED, where the spec refuses a STEP and changes nothing
  (60_exceptions.md R209, log entry 13). Safe: no state is left out, and the command STEP answers the same with the state kept. -/
  | notRunnable
  deriving DecidableEq, Repr

/-- What a step of this machine answers. -/
abbrev StepOutcome := Host.Outcome State Fault Refusal

/-- What the Engine's port answers: success, or a fault reason, each with the state left behind
(40_execute.md R130). -/
inductive EngineResult where
  | ok (s : State)
  | fail (reason : ExecFault) (s : State)
  deriving DecidableEq, Repr

/-- The power-on state for parameters `c` (70_reset_and_hazards.md R220, 10_state.md R52): every register 0 but PC, which
is `userStart`; every word 0, every label empty, no program, IDLE (log entry 15). -/
def State.powerOn (c : Config) : State where
  AX := 0
  BX := 0
  CX := 0
  DX := 0
  AC := 0
  IR := 0#8
  PC := c.osSize0
  size := c.size0
  osSize := c.osSize0
  mem := []
  labels := []
  runState := .idle
  program := []
  currentIndex := 0
  running := false
  lastFault := none
  cfg := c
  drawCount := 0

/-- The machine right after power-on, under the default parameters. -/
def State.reset : State := State.powerOn Config.default

end Sys2Proof.Machine
end

