-- ==== Sys2Proof/Machine/Ops.lean ====
section
/-! DEFINITION. Machine/Ops.lean: the named operations over registers, memory, the arbiter's configuration and the
sequencer: every read and write of the state goes through here. -/

namespace Sys2Proof.Machine

/-! ## Sparse arrays in canonical form -/

/-- What the array holds at `a`; an address not listed holds `d`. -/
def Cells.get {α : Type} (d : α) (cells : Cells α) (a : Nat) : α :=
  match cells with
  | [] => d
  | (b, w) :: rest => if b = a then w else Cells.get d rest a

/-- The array without an entry at `a`. -/
def Cells.erase {α : Type} (cells : Cells α) (a : Nat) : Cells α :=
  cells.filter (fun c => decide (c.1 ≠ a))

/-- The array with an entry for `a` put before the first higher address. -/
def Cells.insert {α : Type} (cells : Cells α) (a : Nat) (v : α) : Cells α :=
  match cells with
  | [] => [(a, v)]
  | (b, w) :: rest => if a < b then (a, v) :: (b, w) :: rest else (b, w) :: Cells.insert rest a v

/-- The array with `v` at `a`; writing what an unlisted address holds removes the entry. -/
def Cells.put {α : Type} [DecidableEq α] (d : α) (cells : Cells α) (a : Nat) (v : α) : Cells α :=
  if v = d then Cells.erase cells a else Cells.insert (Cells.erase cells a) a v

/-- The array with every address of `[lo, hi)` back at the default. -/
def Cells.clear {α : Type} (cells : Cells α) (lo hi : Nat) : Cells α :=
  cells.filter (fun c => !(decide (lo ≤ c.1) && decide (c.1 < hi)))

/-- The array with only the addresses below `n`; the others are back at the default. -/
def Cells.below {α : Type} (cells : Cells α) (n : Nat) : Cells α :=
  cells.filter (fun c => decide (c.1 < n))

/-- Every address listed is at least `lo`, the addresses rise strictly, and no entry holds the default. -/
def Cells.wfFrom {α : Type} [DecidableEq α] (d : α) (lo : Nat) : Cells α → Bool
  | [] => true
  | (a, v) :: rest => decide (lo ≤ a) && decide (v ≠ d) && Cells.wfFrom d (a + 1) rest

/-- The canonical form: equal arrays are equal lists. -/
def Cells.wf {α : Type} [DecidableEq α] (d : α) (cells : Cells α) : Bool := Cells.wfFrom d 0 cells

/-- The canonical form of the memory: an unlisted word reads as 0 (10_state.md R52, 92_eei_decisions.md D17). -/
def Memory.wf (mem : Cells Int) : Bool := Cells.wf 0 mem

/-- The canonical form of the labels: an unlisted label is empty (10_state.md R52). -/
def Labels.wf (labels : Cells Text) : Bool := Cells.wf [] labels

/-! ## Registers -/

/-- `x[r]` (00_scope.md R12). -/
def State.reg (s : State) : Reg → Int
  | .AX => s.AX
  | .BX => s.BX
  | .CX => s.CX
  | .DX => s.DX

/-- `x[r] <- v` (00_scope.md R12). -/
def State.setReg (s : State) (r : Reg) (v : Int) : State :=
  match r with
  | .AX => { s with AX := v }
  | .BX => { s with BX := v }
  | .CX => { s with CX := v }
  | .DX => { s with DX := v }

/-- `AC <- v`. -/
def State.setAC (s : State) (v : Int) : State := { s with AC := v }

/-- `IR <- code` (40_execute.md R132). -/
def State.latchIR (s : State) (code : BitVec 8) : State := { s with IR := code }

/-- `setProgramStart(address)`: `PC <- address`, with no range check (40_execute.md R139). -/
def State.setProgramStart (s : State) (address : Int) : State := { s with PC := address }

/-- `any_W()`: a fresh W-bit value, and the state in which it is spent (00_scope.md R12, log entry 4). -/
def State.draw (s : State) : State × Int :=
  ({ s with drawCount := s.drawCount + 1 }, (Config.freeWord s.cfg.width s.drawCount).toInt)

/-! ## The arbiter's derived values and the regions -/

/-- `userStart = osSize` (10_state.md R39). -/
def State.userStart (s : State) : Int := s.osSize

/-- `osEnd = osSize - 1` (10_state.md R39). -/
def State.osEnd (s : State) : Int := s.osSize - 1

/-- `userSize = size - osSize` (10_state.md R39). -/
def State.userSize (s : State) : Int := s.size - s.osSize

/-- `0 ≤ a < size`. -/
def State.inMemory (s : State) (a : Int) : Bool := decide (0 ≤ a) && decide (a < s.size)

/-- `userStart ≤ a < size`: the addresses a protected write may change (20_memory.md R61). -/
def State.inUser (s : State) (a : Int) : Bool := decide (s.userStart ≤ a) && decide (a < s.size)

/-- The region of an address; none outside `[0, size)` (10_state.md R41). -/
def State.region (s : State) (a : Int) : Option Region :=
  if s.inMemory a then (if a ≤ s.osEnd then some .os else some .user) else none

/-! ## The arbiter's access operations -/

/-- `read(a)`: never fails; 0 outside `[0, size)` (20_memory.md R60). -/
def State.memRead (s : State) (a : Int) : Int :=
  if s.inMemory a then Cells.get 0 s.mem a.toNat else 0

/-- `label[a]`; empty outside `[0, size)` (10_state.md R37). -/
def State.labelAt (s : State) (a : Int) : Text :=
  if s.inMemory a then Cells.get [] s.labels a.toNat else []

/-- `label[a] <- lbl` if a label is given (20_memory.md R61). -/
def putLabel (labels : Cells Text) (a : Nat) : Option Text → Cells Text
  | none => labels
  | some lbl => Cells.put [] labels a lbl

/-- `write(a, v, lbl?)`, the protected write; `none` is `fail`, and changes nothing (20_memory.md R61). -/
def State.memWrite (s : State) (a : Int) (v : Int) (lbl : Option Text) : Option State :=
  if s.inUser a then
    some { s with mem := Cells.put 0 s.mem a.toNat v, labels := putLabel s.labels a.toNat lbl }
  else none

/-- `forceWrite(a, v, lbl)`, past the region check; `none` is the refusal outside `[0, size)` (20_memory.md R63). -/
def State.forceWrite (s : State) (a : Int) (v : Int) (lbl : Text) : Option State :=
  if s.inMemory a then
    some { s with mem := Cells.put 0 s.mem a.toNat v, labels := Cells.put [] s.labels a.toNat lbl }
  else none

/-- `clearUser()`: words 0 and labels empty on `[userStart, size)` (20_memory.md R64). -/
def State.clearUser (s : State) : State :=
  { s with mem := Cells.clear s.mem s.osSize s.size, labels := Cells.clear s.labels s.osSize s.size }

/-! ## The arbiter's configuration operations and reset -/

/-- Engine `reset()` (70_reset_and_hazards.md R221). -/
def State.engineReset (s : State) : State :=
  { s with AX := 0, BX := 0, CX := 0, DX := 0, AC := 0, IR := 0#8, PC := s.userStart }

/-- The OS size RESIZE computes: `max(RESIZE_MIN_OS, floor(newSize / RESIZE_DIV))` (20_memory.md R65). -/
def resizedOsSize (c : Config) (newSize : Nat) : Nat := max c.resizeMinOs (newSize / c.resizeDiv)

/-- `resize(newSize)`; `none` is `fail`, and changes nothing (20_memory.md R65). -/
def State.resize (s : State) (newSize : Int) : Option State :=
  if newSize < s.cfg.minSize ∨ newSize > s.cfg.maxSize then none
  else
    some { s with
      mem := Cells.below s.mem (min s.size newSize.toNat)
      labels := Cells.below s.labels (min s.size newSize.toNat)
      size := newSize.toNat
      osSize := resizedOsSize s.cfg newSize.toNat }

/-- The constraints CONFIGURE validates (20_memory.md R66). -/
def configLegal (c : Config) (total os : Int) : Bool :=
  decide (total ≥ 1 ∧ os ≥ 1 ∧ total ≥ c.minSize ∧ os ≥ c.minOs ∧ total - os ≥ c.minUser ∧ total ≤ c.maxSize)

/-- `CONFIGURE(total, os)`; `none` is ConfigError, and changes nothing (20_memory.md R66). -/
def State.configure (s : State) (total os : Int) : Option State :=
  if configLegal s.cfg total os then
    some (State.engineReset { s with
      size := total.toNat
      osSize := os.toNat
      mem := []
      labels := []
      program := []
      currentIndex := 0
      running := false
      lastFault := none
      runState := .idle })
  else none

/-! ## The sequencer's operations: PC advance, fault entry, the end of a step -/

/-- `advancePC()`: `PC <- PC + 1`. The spec leaves the result open where `PC + 1` is no W-bit value, so it is a free value
there (40_execute.md R138, log entry 7). -/
def State.advancePC (s : State) : State :=
  if inSW s.cfg.width (s.PC + 1) then { s with PC := s.PC + 1 }
  else { s.draw.1 with PC := s.draw.2 }

/-- Fault entry, the one trap entry of this machine (60_exceptions.md R184): HALTED, `running` off, the reason recorded.
Nothing returns from it: HALTED is left by host commands only (R185, R186). -/
def State.takeFault (s : State) (reason : ExecFault) : State :=
  { s with runState := .halted, running := false, lastFault := some reason }

/-- `runState <- COMPLETED; running <- false` (60_exceptions.md R206, R207). -/
def State.complete (s : State) : State := { s with runState := .completed, running := false }

/-- `currentIndex <- currentIndex + 1`, and COMPLETED when it reaches the end of the program
(60_exceptions.md R206). -/
def State.advanceIndex (s : State) : State :=
  if s.currentIndex + 1 = s.program.length then
    State.complete { s with currentIndex := s.currentIndex + 1 }
  else { s with currentIndex := s.currentIndex + 1 }

/-- The state an answer of the Engine leaves behind, whether it succeeded or failed. -/
def EngineResult.state : EngineResult → State
  | .ok s => s
  | .fail _ s => s

/-- The end of a step: on success PC and the cursor advance, on a fault the fault entry is taken
(60_exceptions.md R206). -/
def retire : EngineResult → StepOutcome
  | .ok s => .next s.advancePC.advanceIndex
  | .fail reason s => .next (s.takeFault reason)

/-- The ExecutionFault a decode error raises (30_encoding.md R98; 40_execute.md R134, R135). -/
def decodeFault : DecodeError → ExecFault
  | .badOpcode => .E_OPCODE
  | .badRegister => .E_REG

end Sys2Proof.Machine
end

