-- ==== Sys2Proof/Machine/Operands.lean ====
section
/-! DEFINITION. Machine/Operands.lean: the two operand forms of the ISA, a register and STORE's segment-relative address
(30_encoding.md R102, 42_store.md R172). A register operand is `State.reg`; there is no other form. -/

namespace Sys2Proof.Machine

/-- STORE's effective address `userStart + x[r]`, a mathematical integer that never wraps (42_store.md R170,
20_memory.md R68). -/
def storeAddress (r : Reg) (s : State) : Int := s.userStart + s.reg r

end Sys2Proof.Machine
end

