-- ==== Sys2Proof/Machine/Flags.lean ====
section
/-! DEFINITION. Machine/Flags.lean: the core has no flags (10_state.md R42): what other machines report in a flag, a result
outside the range, follows the overflow policy here and nothing else (41_register_ops.md R160). -/

namespace Sys2Proof.Machine

/-- Two's-complement wrap: `((n + 2^(W-1)) mod 2^W) - 2^(W-1)` (41_register_ops.md R160). -/
def wrapSW (w : Nat) (n : Int) : Int := (n + halfRange w) % (2 * halfRange w) - halfRange w

/-- `to_SW(n)`: `n` in range, else by `OVF_MODE` a draw or the wrap (41_register_ops.md R160). Answers the state too,
since a draw spends a free value. -/
def State.toSW (s : State) (n : Int) : State × Int :=
  if inSW s.cfg.width n then (s, n)
  else
    match s.cfg.ovfMode with
    | .any => s.draw
    | .wrap => (s, wrapSW s.cfg.width n)

end Sys2Proof.Machine
end

