-- ==== Sys2Proof/Machine/Alu.lean ====
section
/-! DEFINITION. Machine/Alu.lean: ADD and SUB (41_register_ops.md sections 3 and 4). -/

namespace Sys2Proof.Machine

/-- `AC <- to_SW(n)`. -/
def State.setACnarrowed (s : State) (n : Int) : State := (s.toSW n).1.setAC (s.toSW n).2

/-- ADD r: `AC <- to_SW(AC + x[r])` (41_register_ops.md R152). -/
def engineAdd (r : Reg) (s : State) : EngineResult := .ok (s.setACnarrowed (s.AC + s.reg r))

/-- SUB r: `AC <- to_SW(AC - x[r])` (41_register_ops.md R153). -/
def engineSub (r : Reg) (s : State) : EngineResult := .ok (s.setACnarrowed (s.AC - s.reg r))

/-- ADD r at a step (41_register_ops.md R152, 60_exceptions.md R206). -/
def execAdd (r : Reg) (s : State) : StepOutcome := retire (engineAdd r (s.latchIR (encodeOp .add r)))

/-- SUB r at a step (41_register_ops.md R153, 60_exceptions.md R206). -/
def execSub (r : Reg) (s : State) : StepOutcome := retire (engineSub r (s.latchIR (encodeOp .sub r)))

end Sys2Proof.Machine
end

