-- ==== Sys2Proof/Machine/Register.lean ====
section
/-! DEFINITION. Machine/Register.lean: LOAD, MOV and MOV-with-immediate (41_register_ops.md sections 1, 2 and 5). An
`engine…` is the Engine's effect of one instruction after its IR write; an `exec…` is the whole instruction as a step
runs it: the IR write, the effect, then the end of the step. -/

namespace Sys2Proof.Machine

/-- LOAD r: `AC <- x[r]`; no memory is read (41_register_ops.md R150). -/
def engineLoad (r : Reg) (s : State) : EngineResult := .ok (s.setAC (s.reg r))

/-- MOV r: `x[r] <- AC` (41_register_ops.md R151). -/
def engineMov (r : Reg) (s : State) : EngineResult := .ok (s.setReg r s.AC)

/-- MOV r, v: `x[r] <- v`, the full side-band value; AC is untouched (41_register_ops.md R155). -/
def engineMovImm (r : Reg) (v : Int) (s : State) : EngineResult := .ok (s.setReg r v)

/-- LOAD r at a step (41_register_ops.md R150, 60_exceptions.md R206). -/
def execLoad (r : Reg) (s : State) : StepOutcome := retire (engineLoad r (s.latchIR (encodeOp .load r)))

/-- MOV r at a step (41_register_ops.md R151, 60_exceptions.md R206). -/
def execMov (r : Reg) (s : State) : StepOutcome := retire (engineMov r (s.latchIR (encodeOp .mov r)))

/-- MOV r, v at a step: the code, and so IR, is that of MOV r (41_register_ops.md R155, 60_exceptions.md R206). -/
def execMovImm (r : Reg) (v : Int) (s : State) : StepOutcome :=
  retire (engineMovImm r v (s.latchIR (encodeOp .mov r)))

end Sys2Proof.Machine
end

