-- ==== Sys2Proof/Machine/StoreUnit.lean ====
section
/-! DEFINITION. Machine/StoreUnit.lean: STORE, the one instruction that reaches memory (42_store.md). -/

namespace Sys2Proof.Machine

/-- STORE r: the protected write of AC at `userStart + x[r]`, with no label; on success `x[r] <- AC` too, on failure
E_STORE_PROT and nothing written (42_store.md R170, R171). -/
def engineStore (r : Reg) (s : State) : EngineResult :=
  match s.memWrite (storeAddress r s) s.AC none with
  | some t => .ok (t.setReg r s.AC)
  | none => .fail .E_STORE_PROT s

/-- STORE r at a step (42_store.md R170, 60_exceptions.md R206). -/
def execStore (r : Reg) (s : State) : StepOutcome := retire (engineStore r (s.latchIR (encodeOp .store r)))

end Sys2Proof.Machine
end

