-- ==== Sys2Proof/Machine/Dispatch.lean ====
section
/-! DEFINITION. Machine/Dispatch.lean: the meaning of each instruction, one arm per constructor. -/

namespace Sys2Proof.Machine

def exec (i : Instr) (s : State) : Host.Outcome State Fault Refusal :=
  match i with
  | .load r => Sys2Proof.Machine.execLoad r s
  | .store r => Sys2Proof.Machine.execStore r s
  | .mov r => Sys2Proof.Machine.execMov r s
  | .sub r => Sys2Proof.Machine.execSub r s
  | .add r => Sys2Proof.Machine.execAdd r s
  | .movImm r v => Sys2Proof.Machine.execMovImm r v s

end Sys2Proof.Machine
end

