-- ==== Sys2Proof/Machine/Codec.lean ====
section
/-! DEFINITION. Machine/Codec.lean: the assembler side of the codec: the line grammar, program sources, IMM8 and the
displayed binary text (30_encoding.md sections 4 and 6). -/

namespace Sys2Proof.Machine

/-! ## Characters and tokens -/

/-- The characters trimmed from both ends of a line: space, tab, line feed, vertical tab, form feed, carriage return
(30_encoding.md R111 says "white space" and lists none; log entry 9). -/
def isWhite (c : Char) : Bool := c.toNat == 32 || (decide (9 ≤ c.toNat) && decide (c.toNat ≤ 13))

/-- The token separators: space, tab, comma (30_encoding.md R111). -/
def isSeparator (c : Char) : Bool := c == ' ' || c == '\t' || c == ','

/-- The upper-case form of an ASCII letter, for the case-insensitive keywords (30_encoding.md R112, R113). -/
def upper (c : Char) : Char :=
  if 97 ≤ c.toNat ∧ c.toNat ≤ 122 then Char.ofNat (c.toNat - 32) else c

/-- The line without leading and trailing white space (30_encoding.md R111 step 1). -/
def trim (line : Text) : Text := ((line.dropWhile isWhite).reverse.dropWhile isWhite).reverse

/-- The tokens of the rest of a line, `pending` holding the current token's characters, last first: split at separators,
empty tokens dropped (30_encoding.md R111 steps 2 and 3). -/
def tokensFrom : (pending : Text) → List Char → List Text
  | pending, [] => if pending = [] then [] else [pending.reverse]
  | pending, c :: rest =>
    if isSeparator c then
      if pending = [] then tokensFrom [] rest else pending.reverse :: tokensFrom [] rest
    else tokensFrom (c :: pending) rest

/-- The tokens of a line (30_encoding.md R111). -/
def tokens (line : Text) : List Text := tokensFrom [] (trim line)

/-- The name of an operation (30_encoding.md R112). -/
def opName : Operation → Text
  | .load => ['L', 'O', 'A', 'D']
  | .store => ['S', 'T', 'O', 'R', 'E']
  | .mov => ['M', 'O', 'V']
  | .sub => ['S', 'U', 'B']
  | .add => ['A', 'D', 'D']

/-- The name of a register (30_encoding.md R113). -/
def regName : Reg → Text
  | .AX => ['A', 'X']
  | .BX => ['B', 'X']
  | .CX => ['C', 'X']
  | .DX => ['D', 'X']

/-- The operation a token names, whatever its case (30_encoding.md R112). -/
def opOfToken (t : Text) : Option Operation :=
  [Operation.load, .store, .mov, .sub, .add].find? (fun op => decide (opName op = t.map upper))

/-- The register a token names, whatever its case (30_encoding.md R113). -/
def regOfToken (t : Text) : Option Reg :=
  [Reg.AX, .BX, .CX, .DX].find? (fun r => decide (regName r = t.map upper))

/-! ## Immediates -/

/-- The value of a decimal digit. -/
def digitValue (c : Char) : Option Nat :=
  if 48 ≤ c.toNat ∧ c.toNat ≤ 57 then some (c.toNat - 48) else none

/-- The value of a string of decimal digits read after a prefix of value `acc`; none if a character is no digit. -/
def digitsValue : (acc : Nat) → Text → Option Nat
  | acc, [] => some acc
  | acc, c :: rest =>
    match digitValue c with
    | none => none
    | some d => digitsValue (10 * acc + d) rest

/-- One or more decimal digits (30_encoding.md R114). -/
def unsignedValue : Text → Option Nat
  | [] => none
  | c :: rest => digitsValue 0 (c :: rest)

/-- An optional sign and one or more decimal digits (30_encoding.md R114). -/
def integerValue (t : Text) : Option Int :=
  match t with
  | [] => none
  | c :: rest =>
    if c = '-' then (unsignedValue rest).map (fun n => -(n : Int))
    else if c = '+' then (unsignedValue rest).map (fun n => (n : Int))
    else (unsignedValue (c :: rest)).map (fun n => (n : Int))

/-- The value of an immediate token: an integer spelling whose value lies in `SW` (30_encoding.md R114). -/
def immediateValue (c : Config) (t : Text) : Option Int :=
  match integerValue t with
  | none => none
  | some v => if inSW c.width v then some v else none

/-! ## Lines and sources -/

/-- The failure cases of `parse` (30_encoding.md R115). -/
inductive ParseError where
  | tooFewTokens
  | tooManyTokens
  | unknownOperation
  | unknownRegister
  | badImmediate
  deriving DecidableEq, Repr

/-- The instruction object of an operation token and a register token (30_encoding.md R110). -/
def assemble (line opToken regToken : Text) (imm : Option Int) : Except ParseError InstrObject :=
  match opOfToken opToken with
  | none => .error .unknownOperation
  | some op =>
    match regOfToken regToken with
    | none => .error .unknownRegister
    | some r => .ok { op := op, reg := r, imm := imm, code := encodeOp op r, text := line }

/-- `parse(line)` (30_encoding.md R110 to R115). A third token is kept for every operation (R119). Which failure a line with
several gets is the model's choice (log entry 19): the number of tokens, then the operation, the register, the
immediate. -/
def parse (c : Config) (line : Text) : Except ParseError InstrObject :=
  match tokens line with
  | [] => .error .tooFewTokens
  | [_] => .error .tooFewTokens
  | [o, r] => assemble line o r none
  | [o, r, v] =>
    match assemble line o r none with
    | .error e => .error e
    | .ok _ =>
      match immediateValue c v with
      | none => .error .badImmediate
      | some n => assemble line o r (some n)
  | _ :: _ :: _ :: _ :: _ => .error .tooManyTokens

/-- `validate(line)`: whether `parse` succeeds (30_encoding.md R116). -/
def validate (c : Config) (line : Text) : Bool :=
  match parse c line with
  | .ok _ => true
  | .error _ => false

/-- Blank lines and lines that start, after trimming, with `;` or `//` (30_encoding.md R117). -/
def isComment (line : Text) : Bool :=
  match trim line with
  | [] => true
  | [c] => c == ';'
  | c :: d :: _ => c == ';' || (c == '/' && d == '/')

/-- The first malformed line of a source: its 1-based physical number and its text (30_encoding.md R118). -/
structure BadLine where
  number : Nat
  line : Text
  deriving DecidableEq, Repr

/-- The program of the rest of a source whose next line has number `n` (30_encoding.md R118, 60_exceptions.md R205). -/
def parseSource (c : Config) : (n : Nat) → List Text → Except BadLine (List InstrObject)
  | _, [] => .ok []
  | n, line :: rest =>
    if isComment line then parseSource c (n + 1) rest
    else
      match parse c line with
      | .error _ => .error { number := n, line := line }
      | .ok ins =>
        match parseSource c (n + 1) rest with
        | .error e => .error e
        | .ok prog => .ok (ins :: prog)

/-! ## MOV-with-immediate, IMM8 and display -/

/-- An immediate is present, per `IMM_PRESENCE` (30_encoding.md R119). -/
def immPresent (p : ImmPresence) : Option Int → Bool
  | none => false
  | some v =>
    match p with
    | .token => true
    | .nonzero => decide (v ≠ 0)

/-- `isMovImm(ins)` (60_exceptions.md R205, 30_encoding.md R119). -/
def isMovImm (c : Config) (ins : InstrObject) : Bool :=
  decide (ins.op = .mov) && immPresent c.immPresence ins.imm

/-- What the sequencer issues for an object: its code, with the immediate on the side-band only for MOV-with-immediate
(30_encoding.md R103, log entry 16). -/
def issueOf (c : Config) (ins : InstrObject) : Issue :=
  { code := ins.code, imm := if isMovImm c ins then ins.imm else none }

/-- `encodeImmediate(v)`: sign in bit 7, magnitude clamped to `IMM_MAX` in bits 6 to 0 (30_encoding.md R100). -/
def encodeImmediate (c : Config) (v : Int) : BitVec 8 :=
  (if v < 0 then 1#1 else 0#1) ++ BitVec.ofNat 7 (min v.natAbs c.immMax)

/-- The IMM8 word the encoder gives beside the code: for MOV-with-immediate alone (30_encoding.md R101, R119). -/
def imm8Of (c : Config) (ins : InstrObject) : Option (BitVec 8) :=
  if isMovImm c ins then ins.imm.map (encodeImmediate c) else none

/-- A code as eight characters, most significant bit first (10_state.md R53, 92_eei_decisions.md D23). -/
def binaryText (code : BitVec 8) : Text := (codeBits code).map (fun b => if b then '1' else '0')

/-- The bit string that characters spell; none if one is neither `0` nor `1` (40_execute.md R144). -/
def bitsOfText : Text → Option (List Bool)
  | [] => some []
  | c :: rest =>
    if c = '0' then (bitsOfText rest).map (fun bs => false :: bs)
    else if c = '1' then (bitsOfText rest).map (fun bs => true :: bs)
    else none

end Sys2Proof.Machine
end

