-- ==== Sys2Proof/Machine/Execute.lean ====
section
/-! DEFINITION. Machine/Execute.lean: the Engine's instruction port (40_execute.md section 1). A MOV presented here is always
the register form: the port has no side-band. -/

namespace Sys2Proof.Machine

/-- Dispatch on the operation (40_execute.md R133, R137). -/
def engineApply (op : Operation) (r : Reg) (s : State) : EngineResult :=
  match op with
  | .load => engineLoad r s
  | .store => engineStore r s
  | .mov => engineMov r s
  | .sub => engineSub r s
  | .add => engineAdd r s

/-- `execute` of an 8-bit code: the IR write comes before the decode, so a fault leaves it in place
(40_execute.md R132 to R135). -/
def executeCode (code : BitVec 8) (s : State) : EngineResult :=
  match decode code with
  | .error e => .fail (decodeFault e) (s.latchIR code)
  | .ok (op, r) => engineApply op r (s.latchIR code)

/-- `execute(code)` of a bit string of any length: the length check comes first and writes nothing
(40_execute.md R131, R137). -/
def execute (bits : List Bool) (s : State) : EngineResult :=
  if bits.length = 8 then executeCode (BitVec.ofNat 8 (bitsValue bits)) s else .fail .E_LEN s

end Sys2Proof.Machine
end

