-- ==== Sys2Proof/Machine/Sequencer.lean ====
section
/-! DEFINITION. Machine/Sequencer.lean: the sequencer's fetch and its program load (60_exceptions.md R205 to R207). -/

namespace Sys2Proof.Machine

/-- What a STEP finds before any instruction runs (60_exceptions.md R206). -/
inductive Fetched where
  /-- The run state is not LOADED or STEPPING: refused (R209). -/
  | notRunnable
  /-- The cursor is at the end of the program: COMPLETED, nothing executed (R207). -/
  | finished (s : State)
  /-- The bundle to run, in the state with IR written and `runState` STEPPING. -/
  | issued (i : Issue) (s : State)
  deriving DecidableEq, Repr

/-- `runState ∈ {LOADED, STEPPING}`. -/
def State.runnable (s : State) : Bool := decide (s.runState = .loaded ∨ s.runState = .stepping)

/-- `runState <- STEPPING` (60_exceptions.md R206). -/
def State.enterStepping (s : State) : State := { s with runState := .stepping }

/-- The head of STEP: fetch from the program list, never from memory (60_exceptions.md R206, 20_memory.md R74). -/
def fetch (s : State) : Fetched :=
  if s.runnable then
    match s.program[s.currentIndex]? with
    | none => .finished s.complete
    | some ins => .issued (issueOf s.cfg ins) (s.latchIR ins.code).enterStepping
  else .notRunnable

/-- `writeImage` from the `i`-th word on: each code, zero-extended, with its line as the label
(70_reset_and_hazards.md R230, 20_memory.md R70). A rejected write changes nothing; the length check of a load rules
it out. -/
def writeImageFrom : (i : Nat) → List InstrObject → State → State
  | _, [], s => s
  | i, ins :: rest, s =>
    writeImageFrom (i + 1) rest
      ((s.memWrite (s.userStart + i) (ins.code.toNat : Int) (some ins.text)).getD s)

/-- `writeImage(prog)`: the User region is cleared first (70_reset_and_hazards.md R230). -/
def writeImage (prog : List InstrObject) (s : State) : State := writeImageFrom 0 prog s.clearUser

/-- The sequencer after a load that ended well: cursor on the second instruction, LOADED (60_exceptions.md R205). -/
def State.enterLoaded (s : State) : State := { s with currentIndex := 1, runState := .loaded }

/-- A load whose first instruction faults: HALTED, with the cursor on it (60_exceptions.md R205). -/
def State.haltAtLoad (s : State) (e : ExecFault) : State :=
  { s with currentIndex := 0, runState := .halted, lastFault := some e }

/-- The first instruction at load: MOV-with-immediate takes effect, any other is skipped or executed per `FIRST_AT_LOAD`;
if it then faults, the load leaves HALTED with the cursor on it (60_exceptions.md R205). -/
def firstAtLoad (first : InstrObject) (s : State) : State :=
  match isMovImm s.cfg first, first.imm with
  | true, some v => (s.setReg first.reg v).enterLoaded
  | _, _ =>
    match s.cfg.firstAtLoad with
    | .skip => s.enterLoaded
    | .execute =>
      match executeCode first.code s with
      | .ok t => t.enterLoaded
      | .fail e t => t.haltAtLoad e

/-- The sequencer fields, IR and PC that a load writes before the first instruction: IR holds the first code and PC the
second instruction's address (60_exceptions.md R205). -/
def State.holdProgram (s : State) (first : InstrObject) (rest : List InstrObject) : State :=
  { s with
    program := first :: rest
    running := false
    lastFault := none
    IR := first.code
    PC := s.userStart + 1 }

/-- The commit of LOAD_PROGRAM: reset, image, sequencer fields, IR, PC, then the first instruction
(60_exceptions.md R205). -/
def commitLoad (first : InstrObject) (rest : List InstrObject) (s : State) : State :=
  firstAtLoad first ((writeImage (first :: rest) s.engineReset).holdProgram first rest)

/-- The state in which the next step fetches and runs the code `w`: a program of that one code, the cursor on it, LOADED.
The object's operation and register are those of the code; for a code that decodes to nothing they are LOAD and AX, and
a step reads neither (log entry 8). -/
def State.placeCode (s : State) (w : BitVec 8) : State :=
  let named := match decode w with
    | .ok p => p
    | .error _ => (Operation.load, Reg.AX)
  { s with
    program := [{ op := named.1, reg := named.2, imm := none, code := w, text := [] }]
    currentIndex := 0
    runState := .loaded }

end Sys2Proof.Machine
end

