-- ==== Sys2Proof/Machine/Step.lean ====
section
/-! DEFINITION. Machine/Step.lean: STEP, the machine's one step (60_exceptions.md R206). -/

namespace Sys2Proof.Machine

/-- STEP: fetch, then run what was issued; an illegal code takes its fault (60_exceptions.md R206). -/
def step (s : State) : Host.Outcome State Fault Refusal :=
  match fetch s with
  | .notRunnable => .refused .notRunnable
  | .finished t => .next t
  | .issued i t =>
    match decodeIssue i with
    | .ok ins => exec ins t
    | .error e => .next (t.takeFault (decodeFault e))

/-- `s` with the table word `w` as the next instruction: the program list is where fetch reads (20_memory.md R74), so it
stands for a load from outside the machine (log entries 8 and 13). Every instruction has 8 bits. -/
def State.withFetchWord (s : State) (_nbits w : Nat) : State := s.placeCode (BitVec.ofNat 8 w)

end Sys2Proof.Machine
end

