-- ==== Sys2Proof/Machine/Commands.lean ====
section
/-! DEFINITION. Machine/Commands.lean: the host agent: its commands, their replies, and auto-run
(60_exceptions.md section 3). Each command is one atomic transition (00_scope.md R7, R16). -/

namespace Sys2Proof.Machine

/-- The reasons a command can fail with (60_exceptions.md R180), and two of the model's own. -/
inductive Reason where
  | exec (e : ExecFault)      -- codes 1 to 4
  | parse (bad : BadLine)     -- code 16
  | loadEmpty                 -- code 17
  | loadUnreadable            -- code 18
  | loadTooLong               -- code 19
  | config                    -- code 20
  | resizeRejected            -- code 21
  | notRunnable               -- code 22
  | forceRange                -- code 23
  | badCharacter              -- the model's: EXECUTE given a character that is no bit (40_execute.md R144)
  | badArgument               -- the model's: a word argument that is no W-bit value (log entry 11)
  deriving DecidableEq, Repr

/-- The numeric codes of ExecutionFaults (60_exceptions.md R180). -/
def ExecFault.number : ExecFault → Nat
  | .E_LEN => 1
  | .E_OPCODE => 2
  | .E_REG => 3
  | .E_STORE_PROT => 4

/-- The numeric codes (60_exceptions.md R180); the model's own two reasons have none. -/
def Reason.number : Reason → Option Nat
  | .exec e => some e.number
  | .parse _ => some 16
  | .loadEmpty => some 17
  | .loadUnreadable => some 18
  | .loadTooLong => some 19
  | .config => some 20
  | .resizeRejected => some 21
  | .notRunnable => some 22
  | .forceRange => some 23
  | .badCharacter => none
  | .badArgument => none

/-- The commands of 60_exceptions.md R200. -/
inductive Command where
  | configure (total os : Int)
  | resize (newSize : Int)
  | forceWrite (a : Int) (v : Int) (lbl : Text)
  | clearUser
  /-- LOAD_PROGRAM; `none` is a source text that could not be obtained (60_exceptions.md R180, code 18; log entry 18). -/
  | loadProgram (source : Option (List Text))
  | step
  | run
  | stop
  | reset
  /-- EXECUTE, its code as the characters the host presents (40_execute.md R144, R145). -/
  | execute (code : Text)
  | setProgramStart (a : Int)
  | read (a : Int)
  | status
  | snapshot
  | listing
  deriving DecidableEq, Repr

/-- What `status()` shows (10_state.md R53). -/
structure Status where
  AX : Int
  BX : Int
  CX : Int
  DX : Int
  AC : Int
  IR : BitVec 8
  PC : Int
  irText : Text
  deriving DecidableEq, Repr

/-- One tuple of `snapshot()` (20_memory.md R67). `value` is `mem[a]`; whether the display shows it as empty is free. -/
structure SnapshotRow where
  address : Nat
  region : Option Region
  label : Text
  value : Int
  valueEmpty : Bool
  deriving DecidableEq, Repr

/-- What a command answers (60_exceptions.md R200). -/
inductive Reply where
  | ok
  | fail (reason : Reason)
  | word (v : Int)
  | status (st : Status)
  | snapshot (rows : List SnapshotRow)
  | listing (pairs : List (Text × Text))
  deriving DecidableEq, Repr

/-! ## Read-only commands -/

/-- `status()` (10_state.md R53). -/
def State.status (s : State) : Status :=
  { AX := s.AX, BX := s.BX, CX := s.CX, DX := s.DX, AC := s.AC, IR := s.IR, PC := s.PC, irText := binaryText s.IR }

/-- `snapshot()`: every address of `[0, size)` in ascending order (20_memory.md R67). -/
def State.snapshot (s : State) : List SnapshotRow :=
  (List.range s.size).map (fun a =>
    { address := a, region := s.region a, label := s.labelAt a, value := s.memRead a,
      valueEmpty := Config.snapshotValueEmpty a (s.labelAt a) (s.memRead a) })

/-- The program listing: (assembly-text, binary-text) pairs (30_encoding.md R120, 60_exceptions.md R192). That the
assembly text is the line as read is the model's choice (log entry 20). -/
def State.listing (s : State) : List (Text × Text) :=
  s.program.map (fun ins => (ins.text, binaryText ins.code))

/-! ## Commands that change the state -/

/-- What an operation that may be refused answers: the refusal leaves the state as it was
(60_exceptions.md R186). -/
def orRefuse (reason : Reason) (s : State) : Option State → Reply × State
  | some t => (.ok, t)
  | none => (.fail reason, s)

/-- LOAD_PROGRAM once its lines are parsed (60_exceptions.md R205). -/
def loadParsed (prog : List InstrObject) (s : State) : Reply × State :=
  match prog with
  | [] => (.fail .loadEmpty, s)
  | first :: rest =>
    if ((first :: rest).length : Int) > s.userSize then (.fail .loadTooLong, s)
    else (.ok, commitLoad first rest s)

/-- `LOAD_PROGRAM(lines)` (60_exceptions.md R205): a malformed line aborts the load. -/
def loadLines (lines : List Text) (s : State) : Reply × State :=
  match parseSource s.cfg 1 lines with
  | .error bad => (.fail (.parse bad), s)
  | .ok prog => loadParsed prog s

/-- The host's RESET: reload the held program, or with none `reset()` and IDLE (70_reset_and_hazards.md R224;
log entry 12). -/
def hostReset (s : State) : Reply × State :=
  match s.program with
  | [] => (.ok, { s.engineReset with runState := .idle })
  | first :: rest => loadParsed (first :: rest) s

/-- STEP as a command: `step`, with the reply it returns (60_exceptions.md R206, R209). -/
def hostStep (s : State) : Reply × State :=
  match step s with
  | .next t =>
    match t.runState, t.lastFault with
    | .halted, some e => (.fail (.exec e), t)
    | _, _ => (.ok, t)
  | .fault _ => (.fail .notRunnable, s)
  | .refused _ => (.fail .notRunnable, s)

/-- RUN (60_exceptions.md R208, R209). -/
def hostRun (s : State) : Reply × State :=
  if s.runnable then (.ok, { s with running := true }) else (.fail .notRunnable, s)

/-- The direct EXECUTE: exactly the Engine's port, with no effect on the sequencer; a failure is only reported
(40_execute.md R144, R145). -/
def hostExecute (code : Text) (s : State) : Reply × State :=
  match bitsOfText code with
  | none => (.fail .badCharacter, s)
  | some bits =>
    match execute bits s with
    | .ok t => (.ok, t)
    | .fail e t => (.fail (.exec e), t)

/-- The transition of each command (60_exceptions.md R200). -/
def command (c : Command) (s : State) : Reply × State :=
  match c with
  | .configure total os => orRefuse .config s (s.configure total os)
  | .resize n => orRefuse .resizeRejected s (s.resize n)
  | .forceWrite a v lbl =>
    if inSW s.cfg.width v then orRefuse .forceRange s (s.forceWrite a v lbl) else (.fail .badArgument, s)
  | .clearUser => (.ok, s.clearUser)
  | .loadProgram none => (.fail .loadUnreadable, s)
  | .loadProgram (some lines) => loadLines lines s
  | .step => hostStep s
  | .run => hostRun s
  | .stop => (.ok, { s with running := false })
  | .reset => hostReset s
  | .execute code => hostExecute code s
  | .setProgramStart a =>
    if inSW s.cfg.width a then (.ok, s.setProgramStart a) else (.fail .badArgument, s)
  | .read a => (.word (s.memRead a), s)
  | .status => (.status s.status, s)
  | .snapshot => (.snapshot s.snapshot, s)
  | .listing => (.listing s.listing, s)

/-- The replies and the last state of a sequence of commands (20_memory.md R75: one after the other). -/
def commands : List Command → State → List Reply × State
  | [], s => ([], s)
  | c :: rest, s =>
    let now := command c s
    let later := commands rest now.2
    (now.1 :: later.1, later.2)

/-- Auto-run over at most `k` step boundaries with no other command between: `running` is read once at each boundary
(60_exceptions.md R208, 10_state.md R45; log entry 17). -/
def autoRun : (k : Nat) → State → State
  | 0, s => s
  | k + 1, s => if s.running then autoRun k (hostStep s).2 else s

end Sys2Proof.Machine
end

