-- ==== Sys2Proof/Safety.lean ====
section
/-! DEFINITION. Safety.lean: the terms the statements use: what a step may leave unchanged, what it does on success, and the
invariant of every state the machine can reach. -/

namespace Sys2Proof.Machine

/-! ## Frames -/

/-- Every word and every label reads the same, and so does the arbiter's configuration. -/
structure SameMemory (s t : State) : Prop where
  words : ∀ a : Int, t.memRead a = s.memRead a
  labels : ∀ a : Int, t.labelAt a = s.labelAt a
  size : t.size = s.size
  osSize : t.osSize = s.osSize

/-- `SameMemory`, but for the word at `x`. -/
structure SameMemoryExceptWord (x : Int) (s t : State) : Prop where
  words : ∀ a : Int, a ≠ x → t.memRead a = s.memRead a
  labels : ∀ a : Int, t.labelAt a = s.labelAt a
  size : t.size = s.size
  osSize : t.osSize = s.osSize

/-- The register file is the same (10_state.md R30). -/
structure SameRegisters (s t : State) : Prop where
  regs : ∀ r : Reg, t.reg r = s.reg r
  ac : t.AC = s.AC
  ir : t.IR = s.IR
  pc : t.PC = s.PC

/-- The sequencer's fields and the parameters are the same (10_state.md R43 to R46). -/
structure SameSequencer (s t : State) : Prop where
  runState : t.runState = s.runState
  program : t.program = s.program
  currentIndex : t.currentIndex = s.currentIndex
  running : t.running = s.running
  lastFault : t.lastFault = s.lastFault
  cfg : t.cfg = s.cfg

/-- What a successful instruction does to PC and the sequencer (40_execute.md R138, 60_exceptions.md R206): PC and the
cursor advance by one, and the end of the program completes the run. Where `PC + 1` is no W-bit value the spec leaves PC
open, and nothing is said of it here. -/
structure Advanced (s t : State) : Prop where
  pc : inSW s.cfg.width (s.PC + 1) = true → t.PC = s.PC + 1
  index : t.currentIndex = s.currentIndex + 1
  atEnd : s.currentIndex + 1 = s.program.length → t.runState = .completed ∧ t.running = false
  before : s.currentIndex + 1 ≠ s.program.length → t.runState = s.runState ∧ t.running = s.running
  lastFault : t.lastFault = s.lastFault
  program : t.program = s.program
  cfg : t.cfg = s.cfg

/-- `s` after a fault of an instruction with code `code`: the IR write and the fault entry, and nothing else
(60_exceptions.md R183, R184). -/
def State.faulted (s : State) (code : BitVec 8) (reason : ExecFault) : State :=
  { s with IR := code, runState := .halted, running := false, lastFault := some reason }

/-! ## Loading -/

/-- `c` loads the program `prog` in state `s`: it is LOAD_PROGRAM of a source that parses to it, or the host RESET with it
held (60_exceptions.md R205, 70_reset_and_hazards.md R224). -/
def LoadsProgram (c : Command) (s : State) (prog : List InstrObject) : Prop :=
  (∃ lines, c = .loadProgram (some lines) ∧ parseSource s.cfg 1 lines = .ok prog) ∨ (c = .reset ∧ s.program = prog)

/-- `u` is `s` with the program `first :: rest` loaded, but for its first instruction and the two fields its end writes
(60_exceptions.md R205, from the reset to the write of PC): the image with its labels in a User region otherwise clear,
the OS region as it was, the registers reset, IR the first code and PC the second address. -/
structure ReadyToStart (first : InstrObject) (rest : List InstrObject) (s u : State) : Prop where
  image : ∀ (i : Nat) (ins : InstrObject), (first :: rest)[i]? = some ins →
    u.memRead (s.osSize + i) = (ins.code.toNat : Int) ∧ u.labelAt (s.osSize + i) = ins.text
  clear : ∀ a : Int, s.osSize + ((first :: rest).length : Int) ≤ a → u.memRead a = 0 ∧ u.labelAt a = []
  os : ∀ a : Int, a < s.osSize → u.memRead a = s.memRead a ∧ u.labelAt a = s.labelAt a
  size : u.size = s.size
  osSize : u.osSize = s.osSize
  regs : ∀ r, u.reg r = 0
  ac : u.AC = 0
  ir : u.IR = first.code
  pc : u.PC = s.osSize + 1
  program : u.program = first :: rest
  running : u.running = false
  lastFault : u.lastFault = none
  cfg : u.cfg = s.cfg
  drawCount : u.drawCount = s.drawCount

/-! ## The invariant -/

/-- The configuration invariant of 10_state.md R40. -/
structure State.ConfigLegal (s : State) : Prop where
  total : s.cfg.minSize ≤ s.size
  os : s.cfg.minOs ≤ s.osSize
  user : s.osSize + s.cfg.minUser ≤ s.size

/-- An object of the program list is one `parse` can give (10_state.md R44, 30_encoding.md R110, R114). -/
structure InstrObject.Parsed (c : Config) (ins : InstrObject) : Prop where
  code : ins.code = encodeOp ins.op ins.reg
  imm : ∀ v, ins.imm = some v → inSW c.width v = true

/-- Where the cursor stands in each run state (60_exceptions.md R201, R205 to R207). -/
structure State.CursorPlaced (s : State) : Prop where
  inside : s.currentIndex ≤ s.program.length
  loaded : s.runState = .loaded → s.currentIndex = 1
  stepping : s.runState = .stepping → s.currentIndex < s.program.length
  halted : s.runState = .halted → s.currentIndex < s.program.length
  completed : s.runState = .completed → s.currentIndex = s.program.length

/-- What holds in every state the machine reaches from a power-on with well-formed parameters. -/
structure State.Inv (s : State) : Prop where
  params : s.cfg.wf = true
  config : s.ConfigLegal
  sizeBound : s.size ≤ s.cfg.maxSize
  regs : ∀ r : Reg, inSW s.cfg.width (s.reg r) = true
  ac : inSW s.cfg.width s.AC = true
  pc : inSW s.cfg.width s.PC = true
  memWf : Memory.wf s.mem = true
  memCells : ∀ c ∈ s.mem, c.1 < s.size ∧ inSW s.cfg.width c.2 = true
  labelsWf : Labels.wf s.labels = true
  labelCells : ∀ c ∈ s.labels, c.1 < s.size
  parsed : ∀ ins ∈ s.program, InstrObject.Parsed s.cfg ins
  cursor : s.CursorPlaced
  running : s.running = true → s.runnable = true
  faultKept : s.runState = .halted ↔ s.lastFault.isSome = true
  idle : s.runState = .idle ↔ s.program = []

/-- PC is the address of the instruction at the cursor (40_execute.md R140). -/
def State.PcTracksCursor (s : State) : Prop := s.PC = s.userStart + s.currentIndex

end Sys2Proof.Machine
end

