-- ==== Sys2Proof/Certificates/Slice0/Obligations.lean ====
section
/-! DEFINITION. Certificates/Slice0/Obligations.lean: the statements about this machine. Each docstring names the rule it
formalises, or says that it rests on a decision of the spec's own (92_eei_decisions.md) or on the model's log. -/

open Sys2Proof Sys2Proof.Machine

/-! ## Codec -/

/-- Codes the source writes out (95_test_vectors.md S1 to S5, 30_encoding.md R95) decode to the pair they stand for, and
the reset value of IR to no instruction (R99). -/
def Obligations.WrittenCodesDecode : Prop :=
  decode 0b00010001#8 = .ok (.load, .AX) ∧ decode 0b01010100#8 = .ok (.add, .DX) ∧
  decode 0b00100010#8 = .ok (.store, .BX) ∧ decode 0b00110011#8 = .ok (.mov, .CX) ∧
  decode 0b01000001#8 = .ok (.sub, .AX) ∧ decode 0b00000000#8 = .error .badOpcode ∧
  decode 0b00010101#8 = .error .badRegister

/-- 30_encoding.md R98: the illegal codes are those whose operation nibble is outside 1 to 5, then those whose register
nibble is outside 1 to 4; with both illegal the operation is reported (92_eei_decisions.md D8). -/
def Obligations.IllegalCodesAreExactlyTheReservedNibbles : Prop :=
  ∀ code : BitVec 8,
    (decode code = .error .badOpcode ↔ code.toNat / 16 = 0 ∨ 5 < code.toNat / 16) ∧
    (decode code = .error .badRegister ↔
      (1 ≤ code.toNat / 16 ∧ code.toNat / 16 ≤ 5) ∧ (code.toNat % 16 = 0 ∨ 4 < code.toNat % 16))

/-- 30_encoding.md R97, and the same for every instruction with its side-band (92_eei_decisions.md D4): decoding what was
encoded gives the instruction back; a bundle that decodes is, in its code, the encoding of what it decodes to; equal
encodings are of equal instructions; and the code of a line that parses decodes to the line's pair. -/
def Obligations.DecodeAndEncodeAgree : Prop :=
  (∀ i : Instr, decodeIssue (encode i) = .ok i) ∧
  (∀ (b : Issue) (i : Instr), decodeIssue b = .ok i → (encode i).code = b.code) ∧
  (∀ (op : Operation) (r : Reg), decode (encodeOp op r) = .ok (op, r)) ∧
  (∀ i j : Instr, encode i = encode j → i = j) ∧
  (∀ (c : Config) (line : Text) (ins : InstrObject), parse c line = .ok ins →
    decode (encodeOp ins.op ins.reg) = .ok (ins.op, ins.reg) ∧ ins.code = encodeOp ins.op ins.reg)

/-- 30_encoding.md R100, with `IMM_MAX` at most 127 (the bit numbering is 92_eei_decisions.md D6): the top bit is the
sign, the rest the clamped magnitude, and no input gives negative zero. -/
def Obligations.Imm8IsSignedMagnitude : Prop :=
  ∀ (c : Config) (v : Int), c.immMax ≤ 127 →
    (encodeImmediate c v).toNat = (if v < 0 then 128 else 0) + min v.natAbs c.immMax ∧
    (1 ≤ c.immMax → encodeImmediate c v ≠ 0b10000000#8)

/-- 30_encoding.md R110 and R97: an object `parse` gives has the code of its operation and register, which decodes to
that pair; its immediate is a W-bit value; and `validate` (R116) says that `parse` succeeds. -/
def Obligations.ParsedLineDecodesToItsPair : Prop :=
  ∀ (c : Config) (line : Text),
    (∀ ins, parse c line = .ok ins →
      decode ins.code = .ok (ins.op, ins.reg) ∧ InstrObject.Parsed c ins ∧ ins.text = line) ∧
    (validate c line = true ↔ ∃ ins, parse c line = .ok ins)

/-- 30_encoding.md R111 to R113 (separators and trimming: 92_eei_decisions.md D16): an operation word and a register word,
in any case, between white space and with one or more separators between them, assemble to that pair with no
immediate. Which characters are white space, and that letters are ASCII, is PRESUMED (log entry 9): the spec lists
none. -/
def Obligations.TwoTokenLinesAssemble : Prop :=
  ∀ (c : Config) (op : Operation) (r : Reg) (lead opWord gap regWord trail : Text),
    (∀ x ∈ lead, isWhite x = true) → (∀ x ∈ trail, isWhite x = true) →
    gap ≠ [] → (∀ x ∈ gap, x = ' ' ∨ x = '\t' ∨ x = ',') →
    opWord.map upper = opName op → regWord.map upper = regName r →
    parse c (lead ++ opWord ++ gap ++ regWord ++ trail) =
      .ok { op := op, reg := r, imm := none, code := encodeOp op r,
            text := lead ++ opWord ++ gap ++ regWord ++ trail }

/-- 30_encoding.md R114, R119 (spellings: 92_eei_decisions.md D27): a third token of decimal digits, with a sign or
without, is kept as the immediate when its value is a W-bit value, and is a ParseError when it is not. -/
def Obligations.DecimalImmediatesAssemble : Prop :=
  ∀ (c : Config) (op : Operation) (r : Reg) (n : Nat) (digits : Text),
    digits ≠ [] → digitsValue 0 digits = some n →
    ∀ (sign : Text) (v : Int), (sign = [] ∧ v = n) ∨ (sign = ['+'] ∧ v = n) ∨ (sign = ['-'] ∧ v = -(n : Int)) →
      parse c (opName op ++ [' '] ++ regName r ++ [',', ' '] ++ sign ++ digits) =
        if inSW c.width v then
          .ok { op := op, reg := r, imm := some v, code := encodeOp op r,
                text := opName op ++ [' '] ++ regName r ++ [',', ' '] ++ sign ++ digits }
        else .error .badImmediate

/-- 30_encoding.md R118 (line numbers: 92_eei_decisions.md D16): a failed source names its first malformed line: that
line is no comment and does not parse, and every line before it is a comment or parses. -/
def Obligations.BadSourceNamesItsFirstMalformedLine : Prop :=
  ∀ (c : Config) (lines : List Text) (bad : BadLine), parseSource c 1 lines = .error bad →
    1 ≤ bad.number ∧ lines[bad.number - 1]? = some bad.line ∧ isComment bad.line = false ∧
    validate c bad.line = false ∧
    ∀ k line, k < bad.number - 1 → lines[k]? = some line → isComment line = true ∨ validate c line = true

/-! ## The Engine's port -/

/-- 40_execute.md R131: a code whose length is not 8 fails with E_LEN and changes nothing. -/
def Obligations.WrongLengthCodesChangeNothing : Prop :=
  ∀ (bits : List Bool) (s : State), bits.length ≠ 8 → execute bits s = .fail .E_LEN s

/-- 40_execute.md R132: with length 8, IR holds the value of the code afterwards, whatever the outcome. -/
def Obligations.EveryEightBitCodeIsLatched : Prop :=
  ∀ (bits : List Bool) (s : State), bits.length = 8 →
    (execute bits s).state.IR.toNat = bits.foldl (fun n b => 2 * n + (if b then 1 else 0)) 0

/-- 40_execute.md R134: an operation nibble outside the table fails with E_OPCODE, and only IR is written. -/
def Obligations.UnknownOperationFaults : Prop :=
  ∀ (code : BitVec 8) (s : State), (code.toNat / 16 = 0 ∨ 5 < code.toNat / 16) →
    execute (codeBits code) s = .fail .E_OPCODE { s with IR := code }

/-- 40_execute.md R135: a legal operation nibble and a register nibble outside the table fail with E_REG, and only IR is
written. -/
def Obligations.UnknownRegisterFaults : Prop :=
  ∀ (code : BitVec 8) (s : State), 1 ≤ code.toNat / 16 → code.toNat / 16 ≤ 5 →
    (code.toNat % 16 = 0 ∨ 4 < code.toNat % 16) →
    execute (codeBits code) s = .fail .E_REG { s with IR := code }

/-- 40_execute.md R136, and the sequencer half of R145 (the command is 92_eei_decisions.md D20): `execute` never writes
PC, and the host's EXECUTE leaves the whole sequencer and the arbiter's configuration alone. -/
def Obligations.ExecutePortLeavesPcAndSequencer : Prop :=
  (∀ (bits : List Bool) (s : State), (execute bits s).state.PC = s.PC) ∧
  (∀ (code : Text) (s : State),
    SameSequencer s (command (.execute code) s).2 ∧ (command (.execute code) s).2.PC = s.PC ∧
    (command (.execute code) s).2.size = s.size ∧ (command (.execute code) s).2.osSize = s.osSize)

/-- 40_execute.md R137: what the port does with each legal code, whole: LOAD, MOV, ADD, SUB and STORE have the effects of
41_register_ops.md R150 to R153 and 42_store.md R170 and write IR, and nothing else changes. Outside the range ADD and SUB
follow the policy of R160 (the default: 92_eei_decisions.md D3; how a value is drawn: log entry 4). -/
def Obligations.ExecutePortRunsLegalCodes : Prop :=
  ∀ (r : Reg) (s : State),
    execute (codeBits (0b0001#4 ++ regNibble r)) s =
      .ok { s with IR := 0b0001#4 ++ regNibble r, AC := s.reg r } ∧
    execute (codeBits (0b0011#4 ++ regNibble r)) s =
      .ok (State.setReg { s with IR := 0b0011#4 ++ regNibble r } r s.AC) ∧
    (∀ (nibble : BitVec 4) (n : Int),
      (nibble = 0b0101#4 ∧ n = s.AC + s.reg r) ∨ (nibble = 0b0100#4 ∧ n = s.AC - s.reg r) →
      (inSW s.cfg.width n = true →
        execute (codeBits (nibble ++ regNibble r)) s = .ok { s with IR := nibble ++ regNibble r, AC := n }) ∧
      (inSW s.cfg.width n = false → s.cfg.ovfMode = .any →
        execute (codeBits (nibble ++ regNibble r)) s =
          .ok { s with IR := nibble ++ regNibble r, AC := (Config.freeWord s.cfg.width s.drawCount).toInt,
                       drawCount := s.drawCount + 1 }) ∧
      (inSW s.cfg.width n = false → s.cfg.ovfMode = .wrap →
        execute (codeBits (nibble ++ regNibble r)) s =
          .ok { s with
            IR := nibble ++ regNibble r
            AC := (n + halfRange s.cfg.width) % (2 * halfRange s.cfg.width) - halfRange s.cfg.width })) ∧
    (∀ a : Int, storeAddress r s = a → a = s.osSize + s.reg r → s.osSize ≤ a → a < s.size →
      ∃ t, execute (codeBits (0b0010#4 ++ regNibble r)) s = .ok t ∧
        t.memRead a = s.AC ∧ SameMemoryExceptWord a s t ∧ t.reg r = s.AC ∧ (∀ q, q ≠ r → t.reg q = s.reg q) ∧
        t.AC = s.AC ∧ t.IR = 0b0010#4 ++ regNibble r ∧ t.PC = s.PC ∧ SameSequencer s t) ∧
    (s.osSize + s.reg r < s.osSize ∨ (s.size : Int) ≤ s.osSize + s.reg r →
      execute (codeBits (0b0010#4 ++ regNibble r)) s =
        .fail .E_STORE_PROT { s with IR := 0b0010#4 ++ regNibble r })

/-- 40_execute.md R144, R145 (both: 92_eei_decisions.md D20): EXECUTE has exactly the effects of the port on the bits its
characters spell, and reports a failure; other characters change nothing (the reason's name is log entry 11). -/
def Obligations.ExecuteCommandIsThePort : Prop :=
  ∀ s : State,
    (∀ (bits : List Bool) (t : State),
      execute bits s = .ok t → command (.execute (bits.map (fun b => if b then '1' else '0'))) s = (.ok, t)) ∧
    (∀ (bits : List Bool) (e : ExecFault) (t : State),
      execute bits s = .fail e t →
      command (.execute (bits.map (fun b => if b then '1' else '0'))) s = (.fail (.exec e), t)) ∧
    (∀ code : Text, (∃ x ∈ code, x ≠ '0' ∧ x ≠ '1') → command (.execute code) s = (.fail .badCharacter, s))

/-! ## Instructions at a step -/

/-- 41_register_ops.md R150: LOAD r copies `x[r]` to AC; nothing else changes but IR, PC and the cursor. With a register
nibble outside the table it fails with E_REG. -/
def Obligations.LoadCopiesRegisterToAc : Prop :=
  (∀ (r : Reg) (s : State), ∃ t, exec (.load r) s = .next t ∧
    t.AC = s.reg r ∧ (∀ q, t.reg q = s.reg q) ∧ t.IR = 0b0001#4 ++ regNibble r ∧
    SameMemory s t ∧ Advanced s t) ∧
  (∀ (n : BitVec 4) (s : State), n.toNat = 0 ∨ 4 < n.toNat →
    executeCode (0b0001#4 ++ n) s = .fail .E_REG { s with IR := 0b0001#4 ++ n })

/-- 41_register_ops.md R151: MOV r copies AC to `x[r]`; nothing else changes but IR, PC and the cursor. With a register
nibble outside the table it fails with E_REG. A MOV code presented to `execute` takes the same rule. -/
def Obligations.MovCopiesAcToRegister : Prop :=
  (∀ (r : Reg) (s : State), ∃ t, exec (.mov r) s = .next t ∧
    t.reg r = s.AC ∧ (∀ q, q ≠ r → t.reg q = s.reg q) ∧ t.AC = s.AC ∧ t.IR = 0b0011#4 ++ regNibble r ∧
    SameMemory s t ∧ Advanced s t) ∧
  (∀ (n : BitVec 4) (s : State), n.toNat = 0 ∨ 4 < n.toNat →
    executeCode (0b0011#4 ++ n) s = .fail .E_REG { s with IR := 0b0011#4 ++ n }) ∧
  (∀ (r : Reg) (s : State),
    executeCode (0b0011#4 ++ regNibble r) s = .ok (State.setReg { s with IR := 0b0011#4 ++ regNibble r } r s.AC))

/-- 41_register_ops.md R155 (the side-band is 92_eei_decisions.md D4): MOV r, v writes the full `v` to `x[r]`; AC is
untouched and IR holds the code of MOV r. -/
def Obligations.MovImmWritesTheFullImmediate : Prop :=
  ∀ (r : Reg) (v : Int) (s : State), ∃ t, exec (.movImm r v) s = .next t ∧
    t.reg r = v ∧ (∀ q, q ≠ r → t.reg q = s.reg q) ∧ t.AC = s.AC ∧ t.IR = 0b0011#4 ++ regNibble r ∧
    SameMemory s t ∧ Advanced s t

/-- 41_register_ops.md R152: ADD r puts the exact sum in AC where it is a W-bit value. Outside (R160; the default policy is
92_eei_decisions.md D3) AC is a W-bit value: a fresh draw, or the two's-complement wrap. -/
def Obligations.AddPutsSumInAc : Prop :=
  ∀ (r : Reg) (s : State), ∃ t, exec (.add r) s = .next t ∧
    (inSW s.cfg.width (s.AC + s.reg r) = true → t.AC = s.AC + s.reg r) ∧
    (inSW s.cfg.width (s.AC + s.reg r) = false → s.cfg.ovfMode = .any →
      t.AC = (Config.freeWord s.cfg.width s.drawCount).toInt ∧ s.drawCount < t.drawCount) ∧
    (inSW s.cfg.width (s.AC + s.reg r) = false → s.cfg.ovfMode = .wrap →
      t.AC = (s.AC + s.reg r + halfRange s.cfg.width) % (2 * halfRange s.cfg.width) - halfRange s.cfg.width) ∧
    inSW s.cfg.width t.AC = true ∧
    (∀ q, t.reg q = s.reg q) ∧ t.IR = 0b0101#4 ++ regNibble r ∧ SameMemory s t ∧ Advanced s t

/-- 41_register_ops.md R153: SUB r puts the exact difference, AC minus the register, in AC where it is a W-bit value.
Outside (R160; the default policy is 92_eei_decisions.md D3) as for ADD. -/
def Obligations.SubPutsDifferenceInAc : Prop :=
  ∀ (r : Reg) (s : State), ∃ t, exec (.sub r) s = .next t ∧
    (inSW s.cfg.width (s.AC - s.reg r) = true → t.AC = s.AC - s.reg r) ∧
    (inSW s.cfg.width (s.AC - s.reg r) = false → s.cfg.ovfMode = .any →
      t.AC = (Config.freeWord s.cfg.width s.drawCount).toInt ∧ s.drawCount < t.drawCount) ∧
    (inSW s.cfg.width (s.AC - s.reg r) = false → s.cfg.ovfMode = .wrap →
      t.AC = (s.AC - s.reg r + halfRange s.cfg.width) % (2 * halfRange s.cfg.width) - halfRange s.cfg.width) ∧
    inSW s.cfg.width t.AC = true ∧
    (∀ q, t.reg q = s.reg q) ∧ t.IR = 0b0100#4 ++ regNibble r ∧ SameMemory s t ∧ Advanced s t

/-- 42_store.md R170: STORE r writes AC to the word at `userStart + x[r]` and then to `x[r]`, when that address is in the
User region; otherwise it faults with E_STORE_PROT, nothing written but IR. Every other word, every label and every
other register is unchanged. A register nibble outside the table fails with E_REG, whatever the registers hold. -/
def Obligations.StoreWritesUserWordOrFaults : Prop :=
  (∀ (r : Reg) (s : State) (a : Int), storeAddress r s = a → a = s.osSize + s.reg r →
    s.osSize ≤ a → a < s.size →
    ∃ t, exec (.store r) s = .next t ∧
      t.memRead a = s.AC ∧ SameMemoryExceptWord a s t ∧ t.reg r = s.AC ∧ (∀ q, q ≠ r → t.reg q = s.reg q) ∧
      t.AC = s.AC ∧ t.IR = 0b0010#4 ++ regNibble r ∧ Advanced s t) ∧
  (∀ (r : Reg) (s : State), s.osSize + s.reg r < s.osSize ∨ (s.size : Int) ≤ s.osSize + s.reg r →
    exec (.store r) s = .next (s.faulted (0b0010#4 ++ regNibble r) .E_STORE_PROT)) ∧
  (∀ (n : BitVec 4) (s : State), n.toNat = 0 ∨ 4 < n.toNat →
    executeCode (0b0010#4 ++ n) s = .fail .E_REG { s with IR := 0b0010#4 ++ n })

/-- Every instruction has its effect in every state: no fault and no refusal ends a run there. The one fault an issued
instruction can take, a STORE outside the User region, is taken as a next state (60_exceptions.md R184). PC stays a W-bit
value, also where its advance is open (92_eei_decisions.md D22, log entry 7). -/
def Obligations.EveryInstructionAnswersANextState : Prop :=
  ∀ (i : Instr) (s : State), ∃ t, exec i s = .next t ∧ t.program = s.program ∧ t.cfg = s.cfg ∧
    t.size = s.size ∧ t.osSize = s.osSize ∧ t.IR = i.code ∧
    (inSW s.cfg.width s.PC = true → inSW t.cfg.width t.PC = true)

/-! ## The step -/

/-- 60_exceptions.md R206: in LOADED or STEPPING a step runs the instruction the object at the cursor issues, in the state
with IR set to its code and the run state STEPPING. What it issues is the bundle of 30_encoding.md R103, and operation and
register come from the code: for an object no line parses to, where R206 names the object's own register, that is the
model's DEDUCED choice (log entry 16). -/
def Obligations.StepRunsTheIssuedInstruction : Prop :=
  ∀ (s : State) (ins : InstrObject) (i : Instr),
    (s.runState = .loaded ∨ s.runState = .stepping) → s.program[s.currentIndex]? = some ins →
    decodeIssue { code := ins.code, imm := if isMovImm s.cfg ins then ins.imm else none } = .ok i →
    step s = exec i { s with IR := ins.code, runState := .stepping }

/-- 60_exceptions.md R206 with 30_encoding.md R98: a step on an object with an illegal code takes the fault of R184. That it
does so for a MOV-with-immediate object too, which no line parses to with such a code and for which R206 would write the
object's register, is the model's DEDUCED choice (log entry 16). -/
def Obligations.StepTakesTheFaultOfAnIllegalCode : Prop :=
  ∀ (s : State) (ins : InstrObject),
    (s.runState = .loaded ∨ s.runState = .stepping) → s.program[s.currentIndex]? = some ins →
    ((ins.code.toNat / 16 = 0 ∨ 5 < ins.code.toNat / 16) → step s = .next (s.faulted ins.code .E_OPCODE)) ∧
    (1 ≤ ins.code.toNat / 16 → ins.code.toNat / 16 ≤ 5 → (ins.code.toNat % 16 = 0 ∨ 4 < ins.code.toNat % 16) →
      step s = .next (s.faulted ins.code .E_REG))

/-- 60_exceptions.md R207 (a program of length one: 92_eei_decisions.md D33): a step with the cursor at the end of the
program enters COMPLETED and executes nothing. -/
def Obligations.StepAtTheEndCompletes : Prop :=
  ∀ s : State, (s.runState = .loaded ∨ s.runState = .stepping) → s.program.length ≤ s.currentIndex →
    step s = .next { s with runState := .completed, running := false } ∧
    command .step s = (.ok, { s with runState := .completed, running := false })

/-- 60_exceptions.md R209 (92_eei_decisions.md D11): STEP and RUN in IDLE, HALTED or COMPLETED are refused and change
nothing. -/
def Obligations.StepAndRunRefusedWhenNotRunnable : Prop :=
  ∀ s : State, (s.runState = .idle ∨ s.runState = .halted ∨ s.runState = .completed) →
    step s = .refused .notRunnable ∧ command .step s = (.fail .notRunnable, s) ∧
    command .run s = (.fail .notRunnable, s)

/-- 60_exceptions.md R184 and R183: when what STEP presents to the Engine's port fails, the step enters HALTED with IR the
presented code, `running` off and the reason recorded, and nothing else changed, and the command reports the reason; and
no step halts in any other way. -/
def Obligations.FaultEntryIsPrecise : Prop :=
  (∀ (s : State) (ins : InstrObject) (reason : ExecFault) (u : State),
    (s.runState = .loaded ∨ s.runState = .stepping) → s.program[s.currentIndex]? = some ins →
    isMovImm s.cfg ins = false → execute (codeBits ins.code) s = .fail reason u →
    step s = .next (s.faulted ins.code reason) ∧
    command .step s = (.fail (.exec reason), s.faulted ins.code reason)) ∧
  (∀ s t : State, step s = .next t → t.runState = .halted →
    ∃ (ins : InstrObject) (reason : ExecFault), s.program[s.currentIndex]? = some ins ∧
      execute (codeBits ins.code) s = .fail reason { s with IR := ins.code } ∧
      t = s.faulted ins.code reason ∧ command .step s = (.fail (.exec reason), t))

/-- 40_execute.md R141: a step that runs an instruction without a fault moves the cursor by exactly one and never the
program; a step that faults moves neither the cursor nor PC. -/
def Obligations.NoStepTransfersControl : Prop :=
  ∀ s t : State, step s = .next t → s.currentIndex < s.program.length →
    t.program = s.program ∧
    (t.runState ≠ .halted → t.currentIndex = s.currentIndex + 1 ∧
      (inSW s.cfg.width (s.PC + 1) = true → t.PC = s.PC + 1)) ∧
    (t.runState = .halted → t.currentIndex = s.currentIndex ∧ t.PC = s.PC)

/-- In a state of the invariant every code of the program is legal, so the one fault a step takes is a STORE outside the
User region (60_exceptions.md R180: E_LEN is never by STEP; 30_encoding.md R110). -/
def Obligations.ReachableStepsFaultOnlyByStore : Prop :=
  ∀ s t : State, s.Inv → step s = .next t → t.runState = .halted →
    ∃ r : Reg, t = s.faulted (0b0010#4 ++ regNibble r) .E_STORE_PROT ∧
      (s.reg r < 0 ∨ s.userSize ≤ s.reg r)

/-- 10_state.md R48 and 40_execute.md R143: a word that a step changes is the target of a STORE, and holds AC. No step
changes a label (42_store.md R170: STORE passes none). -/
def Obligations.OnlyStoreChangesAWord : Prop :=
  ∀ s t : State, step s = .next t →
    (∀ a : Int, t.memRead a ≠ s.memRead a →
      ∃ r : Reg, t.IR = 0b0010#4 ++ regNibble r ∧ a = s.osSize + s.reg r ∧ t.memRead a = s.AC) ∧
    (∀ a : Int, t.labelAt a = s.labelAt a)

/-- 40_execute.md R140, with the advance of 60_exceptions.md R206: PC stays the address of the instruction at the cursor, in
every step from a state of the invariant in which the program still fits the User region. -/
def Obligations.StepKeepsPcAtTheCursor : Prop :=
  ∀ s t : State, s.Inv → (s.program.length : Int) ≤ s.userSize → s.PcTracksCursor → step s = .next t →
    t.PcTracksCursor

/-- 20_memory.md R74: what a step does outside memory does not depend on memory or labels: with any other words and labels
the same step is taken, and ends in the same state but for words and labels. -/
def Obligations.StepIgnoresMemoryContent : Prop :=
  ∀ (s t : State) (m : Cells Int) (l : Cells Text), step s = .next t →
    ∃ t', step { s with mem := m, labels := l } = .next t' ∧
      t = { t' with mem := t.mem, labels := t.labels }

/-! ## Memory and the arbiter -/

/-- 20_memory.md R61: a protected write changes one word, and its label if one is given, exactly when
`userStart ≤ a < size`, and fails otherwise. -/
def Obligations.ProtectedWriteReachesOnlyUserWords : Prop :=
  ∀ (s : State) (a : Int) (v : Int) (lbl : Option Text),
    ((s.osSize ≤ a ∧ a < s.size) → ∃ t, s.memWrite a v lbl = some t ∧ t.memRead a = v ∧
      t.labelAt a = lbl.getD (s.labelAt a) ∧ (∀ b, b ≠ a → t.memRead b = s.memRead b ∧ t.labelAt b = s.labelAt b) ∧
      SameRegisters s t ∧ SameSequencer s t ∧ t.size = s.size ∧ t.osSize = s.osSize) ∧
    (¬ (s.osSize ≤ a ∧ a < s.size) → s.memWrite a v lbl = none)

/-- 20_memory.md R62: no instruction, at a step or through the Engine's port, changes a word or a label of the OS region;
and a protected write succeeds exactly in the User region. -/
def Obligations.InstructionsNeverChangeTheOsRegion : Prop :=
  (∀ s t : State, step s = .next t → ∀ a : Int, 0 ≤ a → a ≤ s.osEnd →
    t.memRead a = s.memRead a ∧ t.labelAt a = s.labelAt a) ∧
  (∀ (bits : List Bool) (s : State) (a : Int), 0 ≤ a → a ≤ s.osEnd →
    (execute bits s).state.memRead a = s.memRead a ∧ (execute bits s).state.labelAt a = s.labelAt a) ∧
  (∀ (s : State) (a : Int) (v : Int) (lbl : Option Text),
    ((s.memWrite a v lbl).isSome = true ↔ s.osSize ≤ a ∧ a < s.size) ∧
    (a < s.osSize ∨ (s.size : Int) ≤ a → s.memWrite a v lbl = none))

/-- 20_memory.md R73: writing the same value to the same address twice leaves the state that writing it once leaves. -/
def Obligations.ProtectedWriteIsIdempotent : Prop :=
  ∀ (s t : State) (a : Int) (v : Int) (lbl : Option Text),
    s.memWrite a v lbl = some t → t.memWrite a v lbl = some t

/-- 20_memory.md R60: a read never fails: it answers the word `mem[a]` for `0 ≤ a < size` and 0 elsewhere, and no read
changes the state. -/
def Obligations.ReadNeverFailsOrChangesState : Prop :=
  ∀ (s : State) (a : Int),
    (0 ≤ a → a < s.size → command (.read a) s = (.word (Cells.get 0 s.mem a.toNat), s)) ∧
    (a < 0 ∨ (s.size : Int) ≤ a → command (.read a) s = (.word 0, s))

/-- 20_memory.md R63, and R12 (refusal out of range: 92_eei_decisions.md D14): FORCE_WRITE of a W-bit value writes any word
and its label in `[0, size)`, the OS region too, and is refused outside. -/
def Obligations.ForceWriteReachesEveryWord : Prop :=
  ∀ (s : State) (a : Int) (v : Int) (lbl : Text), inSW s.cfg.width v = true →
    ((0 ≤ a ∧ a < s.size) → ∃ t, command (.forceWrite a v lbl) s = (.ok, t) ∧ t.memRead a = v ∧ t.labelAt a = lbl ∧
      (∀ b, b ≠ a → t.memRead b = s.memRead b ∧ t.labelAt b = s.labelAt b) ∧ SameRegisters s t ∧ SameSequencer s t ∧
      t.size = s.size ∧ t.osSize = s.osSize) ∧
    ((a < 0 ∨ (s.size : Int) ≤ a) → command (.forceWrite a v lbl) s = (.fail .forceRange, s))

/-- 20_memory.md R64: CLEAR_USER zeroes the words and empties the labels of the User region, leaves the OS region, and
always succeeds. -/
def Obligations.ClearUserClearsExactlyTheUserRegion : Prop :=
  ∀ s : State, ∃ t, command .clearUser s = (.ok, t) ∧
    (∀ a : Int, s.osSize ≤ a → a < s.size → t.memRead a = 0 ∧ t.labelAt a = []) ∧
    (∀ a : Int, 0 ≤ a → a < s.osSize → t.memRead a = s.memRead a ∧ t.labelAt a = s.labelAt a) ∧
    SameRegisters s t ∧ SameSequencer s t ∧ t.size = s.size ∧ t.osSize = s.osSize

/-- 20_memory.md R65 (labels, floor division and the untouched registers and sequencer: 92_eei_decisions.md D13; the upper
bound: D15): RESIZE keeps the common prefix, zero-fills growth and computes `osSize`; a size out of bounds changes
nothing. -/
def Obligations.ResizeKeepsThePrefix : Prop :=
  ∀ (s : State) (n : Int),
    ((s.cfg.minSize ≤ n ∧ n ≤ s.cfg.maxSize) → ∃ t, command (.resize n) s = (.ok, t) ∧
      (t.size : Int) = n ∧ (t.osSize : Int) = max (s.cfg.resizeMinOs : Int) (n / s.cfg.resizeDiv) ∧
      (∀ a : Int, 0 ≤ a → a < s.size → a < n → t.memRead a = s.memRead a ∧ t.labelAt a = s.labelAt a) ∧
      (∀ a : Int, (s.size : Int) ≤ a → t.memRead a = 0 ∧ t.labelAt a = []) ∧
      SameRegisters s t ∧ SameSequencer s t) ∧
    ((n < s.cfg.minSize ∨ (s.cfg.maxSize : Int) < n) → command (.resize n) s = (.fail .resizeRejected, s))

/-- 20_memory.md R66 (zero content and the sequencer's fields: 92_eei_decisions.md D17, D29; the upper bound: D15):
CONFIGURE accepts exactly the legal configurations, and then leaves fresh memory, reset registers and no program. -/
def Obligations.ConfigureStartsAfresh : Prop :=
  ∀ (s : State) (total os : Int),
    ((1 ≤ total ∧ 1 ≤ os ∧ s.cfg.minSize ≤ total ∧ s.cfg.minOs ≤ os ∧ s.cfg.minUser ≤ total - os ∧
        total ≤ s.cfg.maxSize) →
      ∃ t, command (.configure total os) s = (.ok, t) ∧ (t.size : Int) = total ∧ (t.osSize : Int) = os ∧
        (∀ a, t.memRead a = 0 ∧ t.labelAt a = []) ∧ (∀ r, t.reg r = 0) ∧ t.AC = 0 ∧ t.IR = 0#8 ∧ t.PC = os ∧
        t.program = [] ∧ t.currentIndex = 0 ∧ t.running = false ∧ t.lastFault = none ∧ t.runState = .idle) ∧
    (¬ (1 ≤ total ∧ 1 ≤ os ∧ s.cfg.minSize ≤ total ∧ s.cfg.minOs ≤ os ∧ s.cfg.minUser ≤ total - os ∧
        total ≤ s.cfg.maxSize) →
      command (.configure total os) s = (.fail .config, s))

/-- 10_state.md R41: every address of `[0, size)` has exactly one region, and no other address has one. -/
def Obligations.RegionsPartitionTheMemory : Prop :=
  ∀ (s : State) (a : Int), s.osSize ≤ s.size →
    (s.region a = some .os ↔ 0 ≤ a ∧ a ≤ s.osEnd) ∧
    (s.region a = some .user ↔ s.userStart ≤ a ∧ a ≤ s.size - 1) ∧
    (s.region a = none ↔ a < 0 ∨ (s.size : Int) ≤ a)

/-! ## Reset and the host -/

/-- 70_reset_and_hazards.md R221: the Engine's reset zeroes the registers and sets PC to `userStart`, and changes no word,
label, configuration register or sequencer field. -/
def Obligations.EngineResetClearsOnlyTheRegisters : Prop :=
  ∀ s : State, (∀ r, s.engineReset.reg r = 0) ∧ s.engineReset.AC = 0 ∧ s.engineReset.IR = 0#8 ∧
    s.engineReset.PC = s.osSize ∧ SameMemory s s.engineReset ∧ SameSequencer s s.engineReset

/-- 70_reset_and_hazards.md R220 (92_eei_decisions.md D15, D21): with well-formed parameters the power-on state is what
CONFIGURE(SIZE0, OS_SIZE0) leaves, from any state with those parameters that has drawn nothing. -/
def Obligations.PowerOnIsConfigure : Prop :=
  ∀ (c : Config) (s : State), c.wf = true → s.cfg = c → s.drawCount = 0 →
    command (.configure c.size0 c.osSize0) s = (.ok, State.powerOn c)

/-- 60_exceptions.md R205 and 70_reset_and_hazards.md R230 (reset, clearing and the skipped first instruction:
92_eei_decisions.md D9): what a load leaves when the first instruction is MOV-with-immediate or is skipped: the image and
the reset registers, IR and PC of `ReadyToStart`, the immediate in the register of a first MOV-with-immediate, cursor 1,
LOADED. -/
def Obligations.LoadLeavesTheImageAndLoaded : Prop :=
  ∀ (s : State) (lines : List Text) (first : InstrObject) (rest : List InstrObject),
    parseSource s.cfg 1 lines = .ok (first :: rest) → ((first :: rest).length : Int) ≤ s.userSize →
    (isMovImm s.cfg first = true ∨ s.cfg.firstAtLoad = .skip) →
    ∃ u, ReadyToStart first rest s u ∧
      command (.loadProgram (some lines)) s =
        (.ok, { (if isMovImm s.cfg first = true then u.setReg first.reg (first.imm.getD 0) else u) with
          currentIndex := 1, runState := .loaded })

/-- 60_exceptions.md R205 under `FIRST_AT_LOAD = execute` (92_eei_decisions.md D9): a load, or a RESET of the held program
(70_reset_and_hazards.md R224, D12), presents a first instruction that is not MOV-with-immediate to the Engine's port;
on success the cursor is 1 and the state LOADED, and on a fault the cursor is 0, the state HALTED and the reason
recorded. -/
def Obligations.LoadExecutesTheFirstInstruction : Prop :=
  ∀ (c : Command) (s : State) (first : InstrObject) (rest : List InstrObject),
    LoadsProgram c s (first :: rest) → ((first :: rest).length : Int) ≤ s.userSize →
    isMovImm s.cfg first = false → s.cfg.firstAtLoad = .execute →
    ∃ u, ReadyToStart first rest s u ∧
      (∀ v, execute (codeBits first.code) u = .ok v →
        command c s = (.ok, { v with currentIndex := 1, runState := .loaded })) ∧
      (∀ e v, execute (codeBits first.code) u = .fail e v →
        command c s = (.ok, { v with currentIndex := 0, runState := .halted, lastFault := some e }))

/-- 60_exceptions.md R205, in the order of its checks (the length check: 92_eei_decisions.md D10): LOAD_PROGRAM reports a
source that could not be obtained, else the first malformed line, else a source without instructions, else a program
longer than the User region, and changes nothing. -/
def Obligations.LoadRefusesBadSources : Prop :=
  ∀ (s : State) (lines : List Text),
    command (.loadProgram none) s = (.fail .loadUnreadable, s) ∧
    (∀ bad, parseSource s.cfg 1 lines = .error bad →
      command (.loadProgram (some lines)) s = (.fail (.parse bad), s)) ∧
    ((∀ line ∈ lines, isComment line = true) → command (.loadProgram (some lines)) s = (.fail .loadEmpty, s)) ∧
    (∀ first rest, parseSource s.cfg 1 lines = .ok (first :: rest) → s.userSize < ((first :: rest).length : Int) →
      command (.loadProgram (some lines)) s = (.fail .loadTooLong, s))

/-- 60_exceptions.md R186: a command that fails with anything but an ExecutionFault leaves the state as it was. -/
def Obligations.FailedHostCommandsChangeNothing : Prop :=
  ∀ (c : Command) (s t : State) (reason : Reason), command c s = (.fail reason, t) →
    (∀ e, reason ≠ .exec e) → t = s

/-- 60_exceptions.md R185 (the refusals: 92_eei_decisions.md D11): HALTED is left only by LOAD_PROGRAM, RESET and
CONFIGURE, STEP and RUN are refused there and change nothing, and a step of auto-run is a STEP. -/
def Obligations.HaltedIsSticky : Prop :=
  ∀ (c : Command) (s : State), s.runState = .halted →
    ((command c s).2.runState ≠ .halted →
      (∃ src, c = .loadProgram src) ∨ c = .reset ∨ ∃ total os, c = .configure total os) ∧
    command .step s = (.fail .notRunnable, s) ∧ command .run s = (.fail .notRunnable, s) ∧
    ∀ s' : State, s'.running = true → autoRun 1 s' = (command .step s').2

/-- 70_reset_and_hazards.md R224 (92_eei_decisions.md D12): RESET with a program held is LOAD_PROGRAM of a source of that
program, in its reply and in the state it leaves; where the program fits the User region and its first instruction is
MOV-with-immediate or is skipped, it leaves that program loaded as a load does; with no program it leaves IDLE and
reset registers, and all else as it was. That RESET of a program that no longer fits answers as the load does is the
model's DEDUCED choice (log entry 12). -/
def Obligations.ResetReloadsTheHeldProgram : Prop :=
  (∀ (s : State) (lines : List Text), s.program ≠ [] → parseSource s.cfg 1 lines = .ok s.program →
    command .reset s = command (.loadProgram (some lines)) s) ∧
  (∀ (s : State) (first : InstrObject) (rest : List InstrObject), s.program = first :: rest →
    ((first :: rest).length : Int) ≤ s.userSize → (isMovImm s.cfg first = true ∨ s.cfg.firstAtLoad = .skip) →
    ∃ u, ReadyToStart first rest s u ∧
      command .reset s =
        (.ok, { (if isMovImm s.cfg first = true then u.setReg first.reg (first.imm.getD 0) else u) with
          currentIndex := 1, runState := .loaded })) ∧
  (∀ s : State, s.program = [] → command .reset s =
    (.ok, { s with AX := 0, BX := 0, CX := 0, DX := 0, AC := 0, IR := 0#8, PC := s.osSize, runState := .idle }))

/-- 60_exceptions.md R208, R210 (the host keeps stepping: 92_eei_decisions.md D26): auto-run from a runnable state ends,
COMPLETED or HALTED with `running` off, within one step per instruction left and one more. -/
def Obligations.AutoRunEnds : Prop :=
  ∀ (s : State) (k : Nat), (s.runState = .loaded ∨ s.runState = .stepping) → s.running = true →
    s.program.length - s.currentIndex + 1 ≤ k →
    ((autoRun k s).runState = .completed ∨ (autoRun k s).runState = .halted) ∧ (autoRun k s).running = false

/-- 60_exceptions.md R208 (that the host then steps: 92_eei_decisions.md D26): RUN in LOADED or STEPPING sets `running` and
nothing else, and while `running` is on, auto-run performs STEP at each step boundary. -/
def Obligations.RunStartsAutoRun : Prop :=
  ∀ (s : State) (k : Nat), (s.runState = .loaded ∨ s.runState = .stepping) →
    command .run s = (.ok, { s with running := true }) ∧
    autoRun (k + 1) (command .run s).2 = autoRun k (command .step { s with running := true }).2

/-- 40_execute.md R139: SET_PROGRAM_START writes PC and nothing else, with no check against the regions. An argument that is
no W-bit value is refused by the model's own choice (log entry 11). -/
def Obligations.SetProgramStartWritesPcAlone : Prop :=
  ∀ (s : State) (a : Int),
    (inSW s.cfg.width a = true → command (.setProgramStart a) s = (.ok, { s with PC := a })) ∧
    (inSW s.cfg.width a = false → command (.setProgramStart a) s = (.fail .badArgument, s))

/-- 70_reset_and_hazards.md R244: after STOP no further step of auto-run begins. -/
def Obligations.StopEndsAutoRun : Prop :=
  ∀ (s : State) (k : Nat), autoRun k (command .stop s).2 = (command .stop s).2 ∧
    (command .stop s).2 = { s with running := false }

/-- 10_state.md R53, 20_memory.md R67, 60_exceptions.md R192: the read-only commands change nothing, and a snapshot has one
row for each address in ascending order, with its region, label and word. -/
def Obligations.ReadOnlyCommandsOnlyShow : Prop :=
  ∀ s : State, (∀ c ∈ [Command.status, .snapshot, .listing], (command c s).2 = s) ∧
    s.snapshot.length = s.size ∧
    (∀ (a : Nat) (row : SnapshotRow), s.snapshot[a]? = some row → row.address = a ∧
      row.region = s.region a ∧ row.label = s.labelAt a ∧ row.value = s.memRead a)

/-- 00_scope.md R8: the parameters are arguments: no command changes them. -/
def Obligations.ParametersAreNeverWritten : Prop :=
  ∀ (c : Command) (s : State), (command c s).2.cfg = s.cfg

/-! ## The invariant -/

/-- The invariant holds at power-on for all well-formed parameters, and the default ones are (10_state.md R40, R50;
70_reset_and_hazards.md R220). What well-formed means is in part the model's choice (log entry 14), and the clauses on the
default parameters and on the reset state rest on the sizes the model chose for them (log entry 3). -/
def Obligations.PowerOnSatisfiesInv : Prop :=
  Config.default.wf = true ∧ (∀ c : Config, c.wf = true → (State.powerOn c).Inv) ∧ State.reset.Inv

/-- Every step keeps the invariant: the configuration invariant of 10_state.md R40, W-bit values in the general registers and
AC (41_register_ops.md R161) and in every word, memory and labels in canonical form within `size`, the cursor and
`lastFault` in agreement with the run state (60_exceptions.md R201). PC is a W-bit register (92_eei_decisions.md D22); that
it stays a W-bit value where `PC + 1` is none is the model's choice (log entry 7). -/
def Obligations.StepKeepsInv : Prop :=
  ∀ s t : State, s.Inv → step s = .next t → t.Inv

/-- Every sequence of host commands keeps the invariant (10_state.md R40 and R50; 60_exceptions.md R200, R201). That PC stays
a W-bit value rests on the model's choices where its advance is open (log entry 7) and that SET_PROGRAM_START and
FORCE_WRITE refuse a value that is no W-bit value (log entry 11). -/
def Obligations.CommandsKeepInv : Prop :=
  ∀ (cs : List Command) (s : State), s.Inv → (commands cs s).2.Inv
end

