-- ==== Sys2Proof/Laws/Cells.lean ====
section
/-! SUPPORT. Laws/Cells.lean: reading a sparse array after each of its operations, and the canonical form each keeps. -/

namespace Sys2Proof.Machine

variable {α : Type}

/-! ## Reading -/

theorem Cells.get_filter (d : α) (p : Nat × α → Bool) (q : Nat → Bool) (hp : ∀ c, p c = q c.1) (cells : Cells α) (a : Nat) :
    Cells.get d (cells.filter p) a = if q a then Cells.get d cells a else d := by
  induction cells with
  | nil => simp [Cells.get]
  | cons c rest ih =>
    obtain ⟨b, w⟩ := c
    simp only [List.filter_cons, hp]
    by_cases hb : b = a
    · subst hb
      cases hq : q b <;> simp_all [Cells.get]
    · cases hq : q b <;> simp_all [Cells.get]

theorem Cells.get_erase (d : α) (cells : Cells α) (a b : Nat) :
    Cells.get d (Cells.erase cells a) b = if b = a then d else Cells.get d cells b := by
  rw [Cells.erase, Cells.get_filter d _ (fun x => decide (x ≠ a)) (fun _ => rfl)]
  by_cases h : b = a <;> simp [h]

theorem Cells.get_insert_same (d : α) (cells : Cells α) (a : Nat) (v : α) (h : ∀ c ∈ cells, c.1 ≠ a) :
    Cells.get d (Cells.insert cells a v) a = v := by
  induction cells with
  | nil => simp [Cells.insert, Cells.get]
  | cons c rest ih =>
    obtain ⟨b, w⟩ := c
    have hb : b ≠ a := h _ (List.mem_cons_self ..)
    have hrest := ih (fun c hc => h c (List.mem_cons_of_mem _ hc))
    by_cases hlt : a < b <;> simp [Cells.insert, Cells.get, hlt, hb, hrest]

theorem Cells.get_insert_other (d : α) (cells : Cells α) (a b : Nat) (v : α) (h : b ≠ a) :
    Cells.get d (Cells.insert cells a v) b = Cells.get d cells b := by
  induction cells with
  | nil => simp [Cells.insert, Cells.get, Ne.symm h]
  | cons c rest ih =>
    obtain ⟨k, w⟩ := c
    by_cases hlt : a < k <;> simp [Cells.insert, Cells.get, hlt, Ne.symm h, ih]

theorem Cells.erase_avoids (cells : Cells α) (a : Nat) : ∀ c ∈ Cells.erase cells a, c.1 ≠ a := by
  intro c hc
  simpa [Cells.erase] using (List.mem_filter.mp hc).2

theorem Cells.get_put [DecidableEq α] (d : α) (cells : Cells α) (a b : Nat) (v : α) :
    Cells.get d (Cells.put d cells a v) b = if b = a then v else Cells.get d cells b := by
  unfold Cells.put
  by_cases hb : b = a
  · subst hb
    by_cases hv : v = d
    · simp [hv, Cells.get_erase]
    · simp [hv, Cells.get_insert_same d _ _ _ (Cells.erase_avoids cells b)]
  · by_cases hv : v = d
    · simp [hv, hb, Cells.get_erase]
    · simp [hv, hb, Cells.get_insert_other d _ _ _ v hb, Cells.get_erase]

theorem Cells.get_clear (d : α) (cells : Cells α) (lo hi a : Nat) :
    Cells.get d (Cells.clear cells lo hi) a = if lo ≤ a ∧ a < hi then d else Cells.get d cells a := by
  rw [Cells.clear, Cells.get_filter d _ (fun x => !(decide (lo ≤ x) && decide (x < hi))) (fun _ => rfl)]
  by_cases h : lo ≤ a ∧ a < hi
  · simp [h]
  · have : (decide (lo ≤ a) && decide (a < hi)) = false := by simpa using h
    simp [this, h]

theorem Cells.get_below (d : α) (cells : Cells α) (n a : Nat) :
    Cells.get d (Cells.below cells n) a = if a < n then Cells.get d cells a else d := by
  rw [Cells.below, Cells.get_filter d _ (fun x => decide (x < n)) (fun _ => rfl)]
  by_cases h : a < n <;> simp [h]

/-- An array holds the default at an address it does not list. -/
theorem Cells.get_unlisted (d : α) (cells : Cells α) (a : Nat) (h : ∀ c ∈ cells, c.1 ≠ a) : Cells.get d cells a = d := by
  induction cells with
  | nil => rfl
  | cons c rest ih =>
    obtain ⟨b, w⟩ := c
    simp [Cells.get, h _ (List.mem_cons_self ..), ih (fun c hc => h c (List.mem_cons_of_mem _ hc))]

theorem Cells.mem_insert {cells : Cells α} {a : Nat} {v : α} {c : Nat × α} (h : c ∈ Cells.insert cells a v) :
    c = (a, v) ∨ c ∈ cells := by
  induction cells with
  | nil => simpa [Cells.insert] using h
  | cons e rest ih =>
    obtain ⟨b, w⟩ := e
    by_cases hlt : a < b
    · simpa [Cells.insert, hlt] using h
    · simp only [Cells.insert, hlt, if_false, List.mem_cons] at h ⊢
      rcases h with h | h
      · exact .inr (.inl h)
      · exact (ih h).imp_right .inr

/-- Writing the same value at the same address twice is writing it once. -/
theorem Cells.erase_insert (cells : Cells α) (a : Nat) (v : α) :
    Cells.erase (Cells.insert (Cells.erase cells a) a v) a = Cells.erase cells a := by
  suffices h : ∀ l : Cells α, Cells.erase (Cells.insert l a v) a = Cells.erase l a by
    rw [h]; simp [Cells.erase, List.filter_filter]
  intro l
  induction l with
  | nil => simp [Cells.insert, Cells.erase]
  | cons e rest ih =>
    obtain ⟨b, w⟩ := e
    by_cases hlt : a < b
    · simp [Cells.insert, Cells.erase, hlt]
    · simp only [Cells.insert, hlt, if_false]
      simp only [Cells.erase, List.filter_cons] at ih ⊢
      split <;> simp_all

/-! ## The canonical form -/

variable [DecidableEq α]

theorem Cells.wfFrom_weaken (d : α) {lo lo' : Nat} (h : lo' ≤ lo) {cells : Cells α} (hw : Cells.wfFrom d lo cells = true) :
    Cells.wfFrom d lo' cells = true := by
  cases cells with
  | nil => rfl
  | cons c rest =>
    obtain ⟨a, v⟩ := c
    simp only [Cells.wfFrom, Bool.and_eq_true, decide_eq_true_eq] at hw ⊢
    exact ⟨⟨by omega, hw.1.2⟩, hw.2⟩

theorem Cells.wfFrom_filter (d : α) (p : Nat × α → Bool) {lo : Nat} {cells : Cells α} (hw : Cells.wfFrom d lo cells = true) :
    Cells.wfFrom d lo (cells.filter p) = true := by
  induction cells generalizing lo with
  | nil => rfl
  | cons c rest ih =>
    obtain ⟨a, v⟩ := c
    simp only [Cells.wfFrom, Bool.and_eq_true, decide_eq_true_eq] at hw
    cases hp : p (a, v)
    · simp only [List.filter_cons, hp]
      exact Cells.wfFrom_weaken d (by omega) (ih hw.2)
    · simp only [List.filter_cons, hp, if_true, Cells.wfFrom, Bool.and_eq_true, decide_eq_true_eq]
      exact ⟨hw.1, ih hw.2⟩

theorem Cells.wfFrom_insert (d : α) {lo a : Nat} {v : α} {cells : Cells α} (hw : Cells.wfFrom d lo cells = true)
    (hlo : lo ≤ a) (hv : v ≠ d) (ha : ∀ c ∈ cells, c.1 ≠ a) : Cells.wfFrom d lo (Cells.insert cells a v) = true := by
  induction cells generalizing lo with
  | nil => simp [Cells.insert, Cells.wfFrom, hlo, hv]
  | cons c rest ih =>
    obtain ⟨b, w⟩ := c
    simp only [Cells.wfFrom, Bool.and_eq_true, decide_eq_true_eq] at hw
    have hb : b ≠ a := ha _ (List.mem_cons_self ..)
    by_cases hlt : a < b
    · simp only [Cells.insert, hlt, if_true, Cells.wfFrom, Bool.and_eq_true, decide_eq_true_eq]
      exact ⟨⟨hlo, hv⟩, ⟨by omega, hw.1.2⟩, hw.2⟩
    · simp only [Cells.insert, hlt, if_false, Cells.wfFrom, Bool.and_eq_true, decide_eq_true_eq]
      exact ⟨hw.1, ih hw.2 (by omega) (fun c hc => ha c (List.mem_cons_of_mem _ hc))⟩

theorem Cells.wf_put (d : α) {cells : Cells α} (a : Nat) (v : α) (hw : Cells.wf d cells = true) :
    Cells.wf d (Cells.put d cells a v) = true := by
  unfold Cells.put
  have he : Cells.wfFrom d 0 (Cells.erase cells a) = true := Cells.wfFrom_filter d _ hw
  split
  · exact he
  · next hv => exact Cells.wfFrom_insert d he (Nat.zero_le a) hv (Cells.erase_avoids cells a)

theorem Cells.wf_clear (d : α) {cells : Cells α} (lo hi : Nat) (hw : Cells.wf d cells = true) :
    Cells.wf d (Cells.clear cells lo hi) = true := Cells.wfFrom_filter d _ hw

theorem Cells.wf_below (d : α) {cells : Cells α} (n : Nat) (hw : Cells.wf d cells = true) :
    Cells.wf d (Cells.below cells n) = true := Cells.wfFrom_filter d _ hw

/-! ## The entries -/

theorem Cells.mem_put (d : α) {cells : Cells α} {a : Nat} {v : α} {c : Nat × α} (h : c ∈ Cells.put d cells a v) :
    c = (a, v) ∨ c ∈ cells := by
  unfold Cells.put at h
  split at h
  · exact .inr (List.mem_filter.mp h).1
  · exact (Cells.mem_insert h).imp_right (fun h => (List.mem_filter.mp h).1)

end Sys2Proof.Machine
end

