-- ==== Sys2Proof/Laws/Codec.lean ====
section
/-! SUPPORT. Laws/Codec.lean: what the assembler's functions give when they succeed. -/

namespace Sys2Proof.Machine

theorem assemble_ok {line o r imm ins} (h : assemble line o r imm = .ok ins) :
    ins.code = encodeOp ins.op ins.reg ∧ ins.imm = imm ∧ ins.text = line := by
  unfold assemble at h; split at h
  · cases h
  · split at h <;> cases h; exact ⟨rfl, rfl, rfl⟩

theorem immediateValue_inSW {c t v} (h : immediateValue c t = some v) : inSW c.width v = true := by
  unfold immediateValue at h; split at h
  · cases h
  · split at h <;> cases h; assumption

/-- Everything `parse` promises of what it gives. -/
theorem parse_parsed {c line ins} (h : parse c line = .ok ins) : InstrObject.Parsed c ins ∧ ins.text = line := by
  unfold parse at h
  split at h
  · cases h
  · cases h
  · obtain ⟨h1, h2, h3⟩ := assemble_ok h
    exact ⟨⟨h1, fun v hv => by rw [h2] at hv; cases hv⟩, h3⟩
  · split at h
    · cases h
    · split at h
      · cases h
      · next hi =>
        obtain ⟨h1, h2, h3⟩ := assemble_ok h
        exact ⟨⟨h1, fun v hv => by rw [h2] at hv; cases hv; exact immediateValue_inSW hi⟩, h3⟩
  · cases h

end Sys2Proof.Machine
end

