-- ==== Sys2Proof/Laws/State.lean ====
section
/-! SUPPORT. Laws/State.lean: each field after each named update of the state, so that no proof unfolds a record update. -/

namespace Sys2Proof.Machine

variable (s : State)

/-! ### setAC -/

@[simp] theorem State.setAC_AX (v : Int) : (s.setAC v).AX = s.AX := rfl
@[simp] theorem State.setAC_BX (v : Int) : (s.setAC v).BX = s.BX := rfl
@[simp] theorem State.setAC_CX (v : Int) : (s.setAC v).CX = s.CX := rfl
@[simp] theorem State.setAC_DX (v : Int) : (s.setAC v).DX = s.DX := rfl
@[simp] theorem State.setAC_AC (v : Int) : (s.setAC v).AC = v := rfl
@[simp] theorem State.setAC_IR (v : Int) : (s.setAC v).IR = s.IR := rfl
@[simp] theorem State.setAC_PC (v : Int) : (s.setAC v).PC = s.PC := rfl
@[simp] theorem State.setAC_size (v : Int) : (s.setAC v).size = s.size := rfl
@[simp] theorem State.setAC_osSize (v : Int) : (s.setAC v).osSize = s.osSize := rfl
@[simp] theorem State.setAC_mem (v : Int) : (s.setAC v).mem = s.mem := rfl
@[simp] theorem State.setAC_labels (v : Int) : (s.setAC v).labels = s.labels := rfl
@[simp] theorem State.setAC_runState (v : Int) : (s.setAC v).runState = s.runState := rfl
@[simp] theorem State.setAC_program (v : Int) : (s.setAC v).program = s.program := rfl
@[simp] theorem State.setAC_currentIndex (v : Int) : (s.setAC v).currentIndex = s.currentIndex := rfl
@[simp] theorem State.setAC_running (v : Int) : (s.setAC v).running = s.running := rfl
@[simp] theorem State.setAC_lastFault (v : Int) : (s.setAC v).lastFault = s.lastFault := rfl
@[simp] theorem State.setAC_cfg (v : Int) : (s.setAC v).cfg = s.cfg := rfl
@[simp] theorem State.setAC_drawCount (v : Int) : (s.setAC v).drawCount = s.drawCount := rfl

/-! ### latchIR -/

@[simp] theorem State.latchIR_AX (c : BitVec 8) : (s.latchIR c).AX = s.AX := rfl
@[simp] theorem State.latchIR_BX (c : BitVec 8) : (s.latchIR c).BX = s.BX := rfl
@[simp] theorem State.latchIR_CX (c : BitVec 8) : (s.latchIR c).CX = s.CX := rfl
@[simp] theorem State.latchIR_DX (c : BitVec 8) : (s.latchIR c).DX = s.DX := rfl
@[simp] theorem State.latchIR_AC (c : BitVec 8) : (s.latchIR c).AC = s.AC := rfl
@[simp] theorem State.latchIR_IR (c : BitVec 8) : (s.latchIR c).IR = c := rfl
@[simp] theorem State.latchIR_PC (c : BitVec 8) : (s.latchIR c).PC = s.PC := rfl
@[simp] theorem State.latchIR_size (c : BitVec 8) : (s.latchIR c).size = s.size := rfl
@[simp] theorem State.latchIR_osSize (c : BitVec 8) : (s.latchIR c).osSize = s.osSize := rfl
@[simp] theorem State.latchIR_mem (c : BitVec 8) : (s.latchIR c).mem = s.mem := rfl
@[simp] theorem State.latchIR_labels (c : BitVec 8) : (s.latchIR c).labels = s.labels := rfl
@[simp] theorem State.latchIR_runState (c : BitVec 8) : (s.latchIR c).runState = s.runState := rfl
@[simp] theorem State.latchIR_program (c : BitVec 8) : (s.latchIR c).program = s.program := rfl
@[simp] theorem State.latchIR_currentIndex (c : BitVec 8) : (s.latchIR c).currentIndex = s.currentIndex := rfl
@[simp] theorem State.latchIR_running (c : BitVec 8) : (s.latchIR c).running = s.running := rfl
@[simp] theorem State.latchIR_lastFault (c : BitVec 8) : (s.latchIR c).lastFault = s.lastFault := rfl
@[simp] theorem State.latchIR_cfg (c : BitVec 8) : (s.latchIR c).cfg = s.cfg := rfl
@[simp] theorem State.latchIR_drawCount (c : BitVec 8) : (s.latchIR c).drawCount = s.drawCount := rfl

/-! ### setProgramStart -/

@[simp] theorem State.setProgramStart_AX (a : Int) : (s.setProgramStart a).AX = s.AX := rfl
@[simp] theorem State.setProgramStart_BX (a : Int) : (s.setProgramStart a).BX = s.BX := rfl
@[simp] theorem State.setProgramStart_CX (a : Int) : (s.setProgramStart a).CX = s.CX := rfl
@[simp] theorem State.setProgramStart_DX (a : Int) : (s.setProgramStart a).DX = s.DX := rfl
@[simp] theorem State.setProgramStart_AC (a : Int) : (s.setProgramStart a).AC = s.AC := rfl
@[simp] theorem State.setProgramStart_IR (a : Int) : (s.setProgramStart a).IR = s.IR := rfl
@[simp] theorem State.setProgramStart_PC (a : Int) : (s.setProgramStart a).PC = a := rfl
@[simp] theorem State.setProgramStart_size (a : Int) : (s.setProgramStart a).size = s.size := rfl
@[simp] theorem State.setProgramStart_osSize (a : Int) : (s.setProgramStart a).osSize = s.osSize := rfl
@[simp] theorem State.setProgramStart_mem (a : Int) : (s.setProgramStart a).mem = s.mem := rfl
@[simp] theorem State.setProgramStart_labels (a : Int) : (s.setProgramStart a).labels = s.labels := rfl
@[simp] theorem State.setProgramStart_runState (a : Int) : (s.setProgramStart a).runState = s.runState := rfl
@[simp] theorem State.setProgramStart_program (a : Int) : (s.setProgramStart a).program = s.program := rfl
@[simp] theorem State.setProgramStart_currentIndex (a : Int) : (s.setProgramStart a).currentIndex = s.currentIndex := rfl
@[simp] theorem State.setProgramStart_running (a : Int) : (s.setProgramStart a).running = s.running := rfl
@[simp] theorem State.setProgramStart_lastFault (a : Int) : (s.setProgramStart a).lastFault = s.lastFault := rfl
@[simp] theorem State.setProgramStart_cfg (a : Int) : (s.setProgramStart a).cfg = s.cfg := rfl
@[simp] theorem State.setProgramStart_drawCount (a : Int) : (s.setProgramStart a).drawCount = s.drawCount := rfl

/-! ### engineReset -/

@[simp] theorem State.engineReset_AX : s.engineReset.AX = 0 := rfl
@[simp] theorem State.engineReset_BX : s.engineReset.BX = 0 := rfl
@[simp] theorem State.engineReset_CX : s.engineReset.CX = 0 := rfl
@[simp] theorem State.engineReset_DX : s.engineReset.DX = 0 := rfl
@[simp] theorem State.engineReset_AC : s.engineReset.AC = 0 := rfl
@[simp] theorem State.engineReset_IR : s.engineReset.IR = 0#8 := rfl
@[simp] theorem State.engineReset_PC : s.engineReset.PC = s.userStart := rfl
@[simp] theorem State.engineReset_size : s.engineReset.size = s.size := rfl
@[simp] theorem State.engineReset_osSize : s.engineReset.osSize = s.osSize := rfl
@[simp] theorem State.engineReset_mem : s.engineReset.mem = s.mem := rfl
@[simp] theorem State.engineReset_labels : s.engineReset.labels = s.labels := rfl
@[simp] theorem State.engineReset_runState : s.engineReset.runState = s.runState := rfl
@[simp] theorem State.engineReset_program : s.engineReset.program = s.program := rfl
@[simp] theorem State.engineReset_currentIndex : s.engineReset.currentIndex = s.currentIndex := rfl
@[simp] theorem State.engineReset_running : s.engineReset.running = s.running := rfl
@[simp] theorem State.engineReset_lastFault : s.engineReset.lastFault = s.lastFault := rfl
@[simp] theorem State.engineReset_cfg : s.engineReset.cfg = s.cfg := rfl
@[simp] theorem State.engineReset_drawCount : s.engineReset.drawCount = s.drawCount := rfl

/-! ### clearUser -/

@[simp] theorem State.clearUser_AX : s.clearUser.AX = s.AX := rfl
@[simp] theorem State.clearUser_BX : s.clearUser.BX = s.BX := rfl
@[simp] theorem State.clearUser_CX : s.clearUser.CX = s.CX := rfl
@[simp] theorem State.clearUser_DX : s.clearUser.DX = s.DX := rfl
@[simp] theorem State.clearUser_AC : s.clearUser.AC = s.AC := rfl
@[simp] theorem State.clearUser_IR : s.clearUser.IR = s.IR := rfl
@[simp] theorem State.clearUser_PC : s.clearUser.PC = s.PC := rfl
@[simp] theorem State.clearUser_size : s.clearUser.size = s.size := rfl
@[simp] theorem State.clearUser_osSize : s.clearUser.osSize = s.osSize := rfl
@[simp] theorem State.clearUser_mem : s.clearUser.mem = Cells.clear s.mem s.osSize s.size := rfl
@[simp] theorem State.clearUser_labels : s.clearUser.labels = Cells.clear s.labels s.osSize s.size := rfl
@[simp] theorem State.clearUser_runState : s.clearUser.runState = s.runState := rfl
@[simp] theorem State.clearUser_program : s.clearUser.program = s.program := rfl
@[simp] theorem State.clearUser_currentIndex : s.clearUser.currentIndex = s.currentIndex := rfl
@[simp] theorem State.clearUser_running : s.clearUser.running = s.running := rfl
@[simp] theorem State.clearUser_lastFault : s.clearUser.lastFault = s.lastFault := rfl
@[simp] theorem State.clearUser_cfg : s.clearUser.cfg = s.cfg := rfl
@[simp] theorem State.clearUser_drawCount : s.clearUser.drawCount = s.drawCount := rfl

/-! ### takeFault -/

@[simp] theorem State.takeFault_AX (e : ExecFault) : (s.takeFault e).AX = s.AX := rfl
@[simp] theorem State.takeFault_BX (e : ExecFault) : (s.takeFault e).BX = s.BX := rfl
@[simp] theorem State.takeFault_CX (e : ExecFault) : (s.takeFault e).CX = s.CX := rfl
@[simp] theorem State.takeFault_DX (e : ExecFault) : (s.takeFault e).DX = s.DX := rfl
@[simp] theorem State.takeFault_AC (e : ExecFault) : (s.takeFault e).AC = s.AC := rfl
@[simp] theorem State.takeFault_IR (e : ExecFault) : (s.takeFault e).IR = s.IR := rfl
@[simp] theorem State.takeFault_PC (e : ExecFault) : (s.takeFault e).PC = s.PC := rfl
@[simp] theorem State.takeFault_size (e : ExecFault) : (s.takeFault e).size = s.size := rfl
@[simp] theorem State.takeFault_osSize (e : ExecFault) : (s.takeFault e).osSize = s.osSize := rfl
@[simp] theorem State.takeFault_mem (e : ExecFault) : (s.takeFault e).mem = s.mem := rfl
@[simp] theorem State.takeFault_labels (e : ExecFault) : (s.takeFault e).labels = s.labels := rfl
@[simp] theorem State.takeFault_runState (e : ExecFault) : (s.takeFault e).runState = .halted := rfl
@[simp] theorem State.takeFault_program (e : ExecFault) : (s.takeFault e).program = s.program := rfl
@[simp] theorem State.takeFault_currentIndex (e : ExecFault) : (s.takeFault e).currentIndex = s.currentIndex := rfl
@[simp] theorem State.takeFault_running (e : ExecFault) : (s.takeFault e).running = false := rfl
@[simp] theorem State.takeFault_lastFault (e : ExecFault) : (s.takeFault e).lastFault = some e := rfl
@[simp] theorem State.takeFault_cfg (e : ExecFault) : (s.takeFault e).cfg = s.cfg := rfl
@[simp] theorem State.takeFault_drawCount (e : ExecFault) : (s.takeFault e).drawCount = s.drawCount := rfl

/-! ### complete -/

@[simp] theorem State.complete_AX : s.complete.AX = s.AX := rfl
@[simp] theorem State.complete_BX : s.complete.BX = s.BX := rfl
@[simp] theorem State.complete_CX : s.complete.CX = s.CX := rfl
@[simp] theorem State.complete_DX : s.complete.DX = s.DX := rfl
@[simp] theorem State.complete_AC : s.complete.AC = s.AC := rfl
@[simp] theorem State.complete_IR : s.complete.IR = s.IR := rfl
@[simp] theorem State.complete_PC : s.complete.PC = s.PC := rfl
@[simp] theorem State.complete_size : s.complete.size = s.size := rfl
@[simp] theorem State.complete_osSize : s.complete.osSize = s.osSize := rfl
@[simp] theorem State.complete_mem : s.complete.mem = s.mem := rfl
@[simp] theorem State.complete_labels : s.complete.labels = s.labels := rfl
@[simp] theorem State.complete_runState : s.complete.runState = .completed := rfl
@[simp] theorem State.complete_program : s.complete.program = s.program := rfl
@[simp] theorem State.complete_currentIndex : s.complete.currentIndex = s.currentIndex := rfl
@[simp] theorem State.complete_running : s.complete.running = false := rfl
@[simp] theorem State.complete_lastFault : s.complete.lastFault = s.lastFault := rfl
@[simp] theorem State.complete_cfg : s.complete.cfg = s.cfg := rfl
@[simp] theorem State.complete_drawCount : s.complete.drawCount = s.drawCount := rfl

/-! ### enterStepping -/

@[simp] theorem State.enterStepping_AX : s.enterStepping.AX = s.AX := rfl
@[simp] theorem State.enterStepping_BX : s.enterStepping.BX = s.BX := rfl
@[simp] theorem State.enterStepping_CX : s.enterStepping.CX = s.CX := rfl
@[simp] theorem State.enterStepping_DX : s.enterStepping.DX = s.DX := rfl
@[simp] theorem State.enterStepping_AC : s.enterStepping.AC = s.AC := rfl
@[simp] theorem State.enterStepping_IR : s.enterStepping.IR = s.IR := rfl
@[simp] theorem State.enterStepping_PC : s.enterStepping.PC = s.PC := rfl
@[simp] theorem State.enterStepping_size : s.enterStepping.size = s.size := rfl
@[simp] theorem State.enterStepping_osSize : s.enterStepping.osSize = s.osSize := rfl
@[simp] theorem State.enterStepping_mem : s.enterStepping.mem = s.mem := rfl
@[simp] theorem State.enterStepping_labels : s.enterStepping.labels = s.labels := rfl
@[simp] theorem State.enterStepping_runState : s.enterStepping.runState = .stepping := rfl
@[simp] theorem State.enterStepping_program : s.enterStepping.program = s.program := rfl
@[simp] theorem State.enterStepping_currentIndex : s.enterStepping.currentIndex = s.currentIndex := rfl
@[simp] theorem State.enterStepping_running : s.enterStepping.running = s.running := rfl
@[simp] theorem State.enterStepping_lastFault : s.enterStepping.lastFault = s.lastFault := rfl
@[simp] theorem State.enterStepping_cfg : s.enterStepping.cfg = s.cfg := rfl
@[simp] theorem State.enterStepping_drawCount : s.enterStepping.drawCount = s.drawCount := rfl

/-! ### haltAtLoad -/

@[simp] theorem State.haltAtLoad_AX (e : ExecFault) : (s.haltAtLoad e).AX = s.AX := rfl
@[simp] theorem State.haltAtLoad_BX (e : ExecFault) : (s.haltAtLoad e).BX = s.BX := rfl
@[simp] theorem State.haltAtLoad_CX (e : ExecFault) : (s.haltAtLoad e).CX = s.CX := rfl
@[simp] theorem State.haltAtLoad_DX (e : ExecFault) : (s.haltAtLoad e).DX = s.DX := rfl
@[simp] theorem State.haltAtLoad_AC (e : ExecFault) : (s.haltAtLoad e).AC = s.AC := rfl
@[simp] theorem State.haltAtLoad_IR (e : ExecFault) : (s.haltAtLoad e).IR = s.IR := rfl
@[simp] theorem State.haltAtLoad_PC (e : ExecFault) : (s.haltAtLoad e).PC = s.PC := rfl
@[simp] theorem State.haltAtLoad_size (e : ExecFault) : (s.haltAtLoad e).size = s.size := rfl
@[simp] theorem State.haltAtLoad_osSize (e : ExecFault) : (s.haltAtLoad e).osSize = s.osSize := rfl
@[simp] theorem State.haltAtLoad_mem (e : ExecFault) : (s.haltAtLoad e).mem = s.mem := rfl
@[simp] theorem State.haltAtLoad_labels (e : ExecFault) : (s.haltAtLoad e).labels = s.labels := rfl
@[simp] theorem State.haltAtLoad_runState (e : ExecFault) : (s.haltAtLoad e).runState = .halted := rfl
@[simp] theorem State.haltAtLoad_program (e : ExecFault) : (s.haltAtLoad e).program = s.program := rfl
@[simp] theorem State.haltAtLoad_currentIndex (e : ExecFault) : (s.haltAtLoad e).currentIndex = 0 := rfl
@[simp] theorem State.haltAtLoad_running (e : ExecFault) : (s.haltAtLoad e).running = s.running := rfl
@[simp] theorem State.haltAtLoad_lastFault (e : ExecFault) : (s.haltAtLoad e).lastFault = some e := rfl
@[simp] theorem State.haltAtLoad_cfg (e : ExecFault) : (s.haltAtLoad e).cfg = s.cfg := rfl
@[simp] theorem State.haltAtLoad_drawCount (e : ExecFault) : (s.haltAtLoad e).drawCount = s.drawCount := rfl

/-! ### holdProgram -/

@[simp] theorem State.holdProgram_AX (first : InstrObject) (rest : List InstrObject) : (s.holdProgram first rest).AX = s.AX := rfl
@[simp] theorem State.holdProgram_BX (first : InstrObject) (rest : List InstrObject) : (s.holdProgram first rest).BX = s.BX := rfl
@[simp] theorem State.holdProgram_CX (first : InstrObject) (rest : List InstrObject) : (s.holdProgram first rest).CX = s.CX := rfl
@[simp] theorem State.holdProgram_DX (first : InstrObject) (rest : List InstrObject) : (s.holdProgram first rest).DX = s.DX := rfl
@[simp] theorem State.holdProgram_AC (first : InstrObject) (rest : List InstrObject) : (s.holdProgram first rest).AC = s.AC := rfl
@[simp] theorem State.holdProgram_IR (first : InstrObject) (rest : List InstrObject) : (s.holdProgram first rest).IR = first.code := rfl
@[simp] theorem State.holdProgram_PC (first : InstrObject) (rest : List InstrObject) : (s.holdProgram first rest).PC = s.userStart + 1 := rfl
@[simp] theorem State.holdProgram_size (first : InstrObject) (rest : List InstrObject) : (s.holdProgram first rest).size = s.size := rfl
@[simp] theorem State.holdProgram_osSize (first : InstrObject) (rest : List InstrObject) : (s.holdProgram first rest).osSize = s.osSize := rfl
@[simp] theorem State.holdProgram_mem (first : InstrObject) (rest : List InstrObject) : (s.holdProgram first rest).mem = s.mem := rfl
@[simp] theorem State.holdProgram_labels (first : InstrObject) (rest : List InstrObject) : (s.holdProgram first rest).labels = s.labels := rfl
@[simp] theorem State.holdProgram_runState (first : InstrObject) (rest : List InstrObject) : (s.holdProgram first rest).runState = s.runState := rfl
@[simp] theorem State.holdProgram_program (first : InstrObject) (rest : List InstrObject) : (s.holdProgram first rest).program = first :: rest := rfl
@[simp] theorem State.holdProgram_currentIndex (first : InstrObject) (rest : List InstrObject) : (s.holdProgram first rest).currentIndex = s.currentIndex := rfl
@[simp] theorem State.holdProgram_running (first : InstrObject) (rest : List InstrObject) : (s.holdProgram first rest).running = false := rfl
@[simp] theorem State.holdProgram_lastFault (first : InstrObject) (rest : List InstrObject) : (s.holdProgram first rest).lastFault = none := rfl
@[simp] theorem State.holdProgram_cfg (first : InstrObject) (rest : List InstrObject) : (s.holdProgram first rest).cfg = s.cfg := rfl
@[simp] theorem State.holdProgram_drawCount (first : InstrObject) (rest : List InstrObject) : (s.holdProgram first rest).drawCount = s.drawCount := rfl

/-! ### enterLoaded -/

@[simp] theorem State.enterLoaded_AX : s.enterLoaded.AX = s.AX := rfl
@[simp] theorem State.enterLoaded_BX : s.enterLoaded.BX = s.BX := rfl
@[simp] theorem State.enterLoaded_CX : s.enterLoaded.CX = s.CX := rfl
@[simp] theorem State.enterLoaded_DX : s.enterLoaded.DX = s.DX := rfl
@[simp] theorem State.enterLoaded_AC : s.enterLoaded.AC = s.AC := rfl
@[simp] theorem State.enterLoaded_IR : s.enterLoaded.IR = s.IR := rfl
@[simp] theorem State.enterLoaded_PC : s.enterLoaded.PC = s.PC := rfl
@[simp] theorem State.enterLoaded_size : s.enterLoaded.size = s.size := rfl
@[simp] theorem State.enterLoaded_osSize : s.enterLoaded.osSize = s.osSize := rfl
@[simp] theorem State.enterLoaded_mem : s.enterLoaded.mem = s.mem := rfl
@[simp] theorem State.enterLoaded_labels : s.enterLoaded.labels = s.labels := rfl
@[simp] theorem State.enterLoaded_runState : s.enterLoaded.runState = .loaded := rfl
@[simp] theorem State.enterLoaded_program : s.enterLoaded.program = s.program := rfl
@[simp] theorem State.enterLoaded_currentIndex : s.enterLoaded.currentIndex = 1 := rfl
@[simp] theorem State.enterLoaded_running : s.enterLoaded.running = s.running := rfl
@[simp] theorem State.enterLoaded_lastFault : s.enterLoaded.lastFault = s.lastFault := rfl
@[simp] theorem State.enterLoaded_cfg : s.enterLoaded.cfg = s.cfg := rfl
@[simp] theorem State.enterLoaded_drawCount : s.enterLoaded.drawCount = s.drawCount := rfl

/-! ### setReg -/

@[simp] theorem State.setReg_AC (r : Reg) (v : Int) : (s.setReg r v).AC = s.AC := by cases r <;> rfl
@[simp] theorem State.setReg_IR (r : Reg) (v : Int) : (s.setReg r v).IR = s.IR := by cases r <;> rfl
@[simp] theorem State.setReg_PC (r : Reg) (v : Int) : (s.setReg r v).PC = s.PC := by cases r <;> rfl
@[simp] theorem State.setReg_size (r : Reg) (v : Int) : (s.setReg r v).size = s.size := by cases r <;> rfl
@[simp] theorem State.setReg_osSize (r : Reg) (v : Int) : (s.setReg r v).osSize = s.osSize := by cases r <;> rfl
@[simp] theorem State.setReg_mem (r : Reg) (v : Int) : (s.setReg r v).mem = s.mem := by cases r <;> rfl
@[simp] theorem State.setReg_labels (r : Reg) (v : Int) : (s.setReg r v).labels = s.labels := by cases r <;> rfl
@[simp] theorem State.setReg_runState (r : Reg) (v : Int) : (s.setReg r v).runState = s.runState := by cases r <;> rfl
@[simp] theorem State.setReg_program (r : Reg) (v : Int) : (s.setReg r v).program = s.program := by cases r <;> rfl
@[simp] theorem State.setReg_currentIndex (r : Reg) (v : Int) : (s.setReg r v).currentIndex = s.currentIndex := by cases r <;> rfl
@[simp] theorem State.setReg_running (r : Reg) (v : Int) : (s.setReg r v).running = s.running := by cases r <;> rfl
@[simp] theorem State.setReg_lastFault (r : Reg) (v : Int) : (s.setReg r v).lastFault = s.lastFault := by cases r <;> rfl
@[simp] theorem State.setReg_cfg (r : Reg) (v : Int) : (s.setReg r v).cfg = s.cfg := by cases r <;> rfl
@[simp] theorem State.setReg_drawCount (r : Reg) (v : Int) : (s.setReg r v).drawCount = s.drawCount := by cases r <;> rfl

@[simp] theorem State.reg_setReg_same (r : Reg) (v : Int) : (s.setReg r v).reg r = v := by cases r <;> rfl

theorem State.reg_setReg_other (r q : Reg) (v : Int) (h : q ≠ r) : (s.setReg r v).reg q = s.reg q := by
  cases r <;> cases q <;> first | rfl | exact absurd rfl h

/-! ### Reading a register through the updates that touch none -/

@[simp] theorem State.reg_setAC (r : Reg) (v : Int) : (s.setAC v).reg r = s.reg r := by cases r <;> rfl
@[simp] theorem State.reg_latchIR (r : Reg) (c : BitVec 8) : (s.latchIR c).reg r = s.reg r := by cases r <;> rfl
@[simp] theorem State.reg_setProgramStart (r : Reg) (a : Int) : (s.setProgramStart a).reg r = s.reg r := by
  cases r <;> rfl
@[simp] theorem State.reg_clearUser (r : Reg) : s.clearUser.reg r = s.reg r := by cases r <;> rfl
@[simp] theorem State.reg_takeFault (r : Reg) (e : ExecFault) : (s.takeFault e).reg r = s.reg r := by cases r <;> rfl
@[simp] theorem State.reg_complete (r : Reg) : s.complete.reg r = s.reg r := by cases r <;> rfl
@[simp] theorem State.reg_enterStepping (r : Reg) : s.enterStepping.reg r = s.reg r := by cases r <;> rfl
@[simp] theorem State.reg_haltAtLoad (r : Reg) (e : ExecFault) : (s.haltAtLoad e).reg r = s.reg r := by cases r <;> rfl
@[simp] theorem State.reg_holdProgram (r : Reg) (first : InstrObject) (rest : List InstrObject) :
    (s.holdProgram first rest).reg r = s.reg r := by cases r <;> rfl
@[simp] theorem State.reg_enterLoaded (r : Reg) : s.enterLoaded.reg r = s.reg r := by cases r <;> rfl
@[simp] theorem State.reg_engineReset (r : Reg) : s.engineReset.reg r = 0 := by cases r <;> rfl

/-! ### draw -/

@[simp] theorem State.draw_AX : s.draw.1.AX = s.AX := rfl
@[simp] theorem State.draw_BX : s.draw.1.BX = s.BX := rfl
@[simp] theorem State.draw_CX : s.draw.1.CX = s.CX := rfl
@[simp] theorem State.draw_DX : s.draw.1.DX = s.DX := rfl
@[simp] theorem State.draw_AC : s.draw.1.AC = s.AC := rfl
@[simp] theorem State.draw_IR : s.draw.1.IR = s.IR := rfl
@[simp] theorem State.draw_PC : s.draw.1.PC = s.PC := rfl
@[simp] theorem State.draw_size : s.draw.1.size = s.size := rfl
@[simp] theorem State.draw_osSize : s.draw.1.osSize = s.osSize := rfl
@[simp] theorem State.draw_mem : s.draw.1.mem = s.mem := rfl
@[simp] theorem State.draw_labels : s.draw.1.labels = s.labels := rfl
@[simp] theorem State.draw_runState : s.draw.1.runState = s.runState := rfl
@[simp] theorem State.draw_program : s.draw.1.program = s.program := rfl
@[simp] theorem State.draw_currentIndex : s.draw.1.currentIndex = s.currentIndex := rfl
@[simp] theorem State.draw_running : s.draw.1.running = s.running := rfl
@[simp] theorem State.draw_lastFault : s.draw.1.lastFault = s.lastFault := rfl
@[simp] theorem State.draw_cfg : s.draw.1.cfg = s.cfg := rfl
@[simp] theorem State.draw_drawCount : s.draw.1.drawCount = s.drawCount + 1 := rfl
@[simp] theorem State.reg_draw (r : Reg) : s.draw.1.reg r = s.reg r := by cases r <;> rfl

end Sys2Proof.Machine
end

