-- ==== Sys2Proof/Laws/Memory.lean ====
section
/-! SUPPORT. Laws/Memory.lean: what the arbiter's operations answer, what each word and label reads as afterwards, and the
canonical form every one of them keeps. -/

namespace Sys2Proof.Machine

theorem State.inUser_iff (s : State) (a : Int) : s.inUser a = true ↔ (s.osSize : Int) ≤ a ∧ a < s.size := by
  rw [State.inUser, Bool.and_eq_true, decide_eq_true_iff, decide_eq_true_iff]
  rfl

theorem State.inMemory_iff (s : State) (a : Int) : s.inMemory a = true ↔ 0 ≤ a ∧ a < s.size := by
  simp [State.inMemory]

/-- The User region lies within memory. -/
theorem State.inMemory_of_inUser {s : State} {a : Int} (h : s.inUser a = true) : s.inMemory a = true := by
  rw [State.inUser_iff] at h
  rw [State.inMemory_iff]
  omega

theorem memRead_eq (s : State) (a : Int) :
    s.memRead a = if 0 ≤ a ∧ a < s.size then Cells.get 0 s.mem a.toNat else 0 := by
  simp only [State.memRead, State.inMemory_iff]

theorem labelAt_eq (s : State) (a : Int) :
    s.labelAt a = if 0 ≤ a ∧ a < s.size then Cells.get [] s.labels a.toNat else [] := by
  simp only [State.labelAt, State.inMemory_iff]

/-! ## Reading depends on words, labels and `size` alone -/

theorem memRead_congr {s t : State} (hm : t.mem = s.mem) (hs : t.size = s.size) (a : Int) : t.memRead a = s.memRead a := by
  rw [memRead_eq, memRead_eq, hm, hs]

theorem labelAt_congr {s t : State} (hl : t.labels = s.labels) (hs : t.size = s.size) (a : Int) :
    t.labelAt a = s.labelAt a := by
  rw [labelAt_eq, labelAt_eq, hl, hs]

theorem sameMemory_of_eq {s t : State} (hm : t.mem = s.mem) (hl : t.labels = s.labels) (hs : t.size = s.size)
    (ho : t.osSize = s.osSize) : SameMemory s t :=
  ⟨memRead_congr hm hs, labelAt_congr hl hs, hs, ho⟩

theorem memRead_outside (s : State) {a : Int} (h : a < 0 ∨ (s.size : Int) ≤ a) : s.memRead a = 0 := by
  rw [memRead_eq, if_neg (by omega)]

theorem labelAt_outside (s : State) {a : Int} (h : a < 0 ∨ (s.size : Int) ≤ a) : s.labelAt a = [] := by
  rw [labelAt_eq, if_neg (by omega)]

/-! ## A write of one word -/

/-- Reading a word after a word was put in place at `a`. -/
theorem memRead_put {s t : State} {a : Int} {v : Int} (ha : s.inMemory a = true)
    (hm : t.mem = Cells.put 0 s.mem a.toNat v) (hs : t.size = s.size) (b : Int) :
    t.memRead b = if b = a then v else s.memRead b := by
  rw [State.inMemory_iff] at ha
  rw [memRead_eq, memRead_eq, hm, hs, Cells.get_put]
  by_cases hb : b = a
  · subst hb
    simp [ha]
  · by_cases hin : 0 ≤ b ∧ b < s.size
    · rw [if_pos hin, if_pos hin, if_neg (by omega), if_neg hb]
    · rw [if_neg hin, if_neg hin, if_neg hb]

/-- Reading a label after a label was put in place at `a`. -/
theorem labelAt_put {s t : State} {a : Int} {lbl : Text} (ha : s.inMemory a = true)
    (hm : t.labels = Cells.put [] s.labels a.toNat lbl) (hs : t.size = s.size) (b : Int) :
    t.labelAt b = if b = a then lbl else s.labelAt b := by
  rw [State.inMemory_iff] at ha
  rw [labelAt_eq, labelAt_eq, hm, hs, Cells.get_put]
  by_cases hb : b = a
  · subst hb
    simp [ha]
  · by_cases hin : 0 ≤ b ∧ b < s.size
    · rw [if_pos hin, if_pos hin, if_neg (by omega), if_neg hb]
    · rw [if_neg hin, if_neg hin, if_neg hb]

/-- Everything a protected write can do (20_memory.md R61). -/
theorem memWrite_cases (s : State) (a : Int) (v : Int) (lbl : Option Text) :
    (s.inUser a = true ∧ s.memWrite a v lbl =
      some { s with mem := Cells.put 0 s.mem a.toNat v, labels := putLabel s.labels a.toNat lbl }) ∨
    (s.inUser a = false ∧ s.memWrite a v lbl = none) := by
  cases h : s.inUser a <;> simp [State.memWrite, h]

theorem labelAt_putLabel {s t : State} {a : Int} {lbl : Option Text} (ha : s.inMemory a = true)
    (hl : t.labels = putLabel s.labels a.toNat lbl) (hs : t.size = s.size) (b : Int) :
    t.labelAt b = if b = a then lbl.getD (s.labelAt b) else s.labelAt b := by
  cases lbl with
  | none => simp [labelAt_congr (s := s) (t := t) hl hs b]
  | some l => simpa using labelAt_put ha hl hs b

/-! ## Clearing and resizing -/

theorem memRead_clearUser (s : State) (a : Int) :
    s.clearUser.memRead a = if (s.osSize : Int) ≤ a ∧ a < s.size then 0 else s.memRead a := by
  rw [memRead_eq, memRead_eq, State.clearUser_mem, State.clearUser_size, Cells.get_clear]
  by_cases hin : 0 ≤ a ∧ a < s.size
  · rw [if_pos hin, if_pos hin]
    by_cases hu : (s.osSize : Int) ≤ a
    · rw [if_pos (by omega), if_pos (by omega)]
    · rw [if_neg (by omega), if_neg (by omega)]
  · rw [if_neg hin, if_neg hin, ite_self]

theorem labelAt_clearUser (s : State) (a : Int) :
    s.clearUser.labelAt a = if (s.osSize : Int) ≤ a ∧ a < s.size then [] else s.labelAt a := by
  rw [labelAt_eq, labelAt_eq, State.clearUser_labels, State.clearUser_size, Cells.get_clear]
  by_cases hin : 0 ≤ a ∧ a < s.size
  · rw [if_pos hin, if_pos hin]
    by_cases hu : (s.osSize : Int) ≤ a
    · rw [if_pos (by omega), if_pos (by omega)]
    · rw [if_neg (by omega), if_neg (by omega)]
  · rw [if_neg hin, if_neg hin, ite_self]

/-! ## The canonical form -/

/-- Words and labels both in canonical form. -/
def State.Canonical (s : State) : Prop := Memory.wf s.mem = true ∧ Labels.wf s.labels = true

theorem putLabel_wf {labels : Cells Text} (a : Nat) (lbl : Option Text) (h : Labels.wf labels = true) :
    Labels.wf (putLabel labels a lbl) = true := by
  cases lbl with
  | none => exact h
  | some l => exact Cells.wf_put [] a l h

theorem memWrite_canonical {s t : State} {a : Int} {v : Int} {lbl : Option Text} (h : s.memWrite a v lbl = some t)
    (hs : s.Canonical) : t.Canonical := by
  obtain ⟨_, hw⟩ | ⟨_, hw⟩ := memWrite_cases s a v lbl <;> rw [hw] at h
  · cases h
    exact ⟨Cells.wf_put 0 _ v hs.1, putLabel_wf _ lbl hs.2⟩
  · cases h

theorem forceWrite_canonical {s t : State} {a : Int} {v : Int} {lbl : Text} (h : s.forceWrite a v lbl = some t)
    (hs : s.Canonical) : t.Canonical := by
  unfold State.forceWrite at h
  split at h
  · cases h
    exact ⟨Cells.wf_put 0 _ v hs.1, Cells.wf_put [] _ lbl hs.2⟩
  · cases h

theorem clearUser_canonical {s : State} (hs : s.Canonical) : s.clearUser.Canonical :=
  ⟨Cells.wf_clear 0 _ _ hs.1, Cells.wf_clear [] _ _ hs.2⟩

theorem resize_canonical {s t : State} {n : Int} (h : s.resize n = some t) (hs : s.Canonical) : t.Canonical := by
  unfold State.resize at h
  split at h
  · cases h
  · cases h
    exact ⟨Cells.wf_below 0 _ hs.1, Cells.wf_below [] _ hs.2⟩

theorem configure_canonical {s t : State} {total os : Int} (h : s.configure total os = some t) : t.Canonical := by
  unfold State.configure at h
  split at h
  · cases h
    exact ⟨rfl, rfl⟩
  · cases h

theorem writeImageFrom_canonical (prog : List InstrObject) (i : Nat) {s : State} (hs : s.Canonical) :
    (writeImageFrom i prog s).Canonical := by
  induction prog generalizing i s with
  | nil => exact hs
  | cons ins rest ih =>
    apply ih
    cases h : s.memWrite (s.userStart + i) (ins.code.toNat : Int) (some ins.text) with
    | none => exact hs
    | some t => exact memWrite_canonical h hs

theorem reset_canonical : State.reset.Canonical := ⟨rfl, rfl⟩

end Sys2Proof.Machine
end

