-- ==== Sys2Proof/Laws/Range.lean ====
section
/-! SUPPORT. Laws/Range.lean: the W-bit signed range, and the operations that land in it. -/

namespace Sys2Proof.Machine

theorem inSW_iff (w : Nat) (n : Int) : inSW w n = true ↔ -halfRange w ≤ n ∧ n < halfRange w := by
  simp [inSW]

theorem halfRange_pos (w : Nat) : 0 < halfRange w := by
  unfold halfRange
  exact_mod_cast Nat.two_pow_pos (w - 1)

theorem inSW_zero (w : Nat) : inSW w 0 = true := by
  have := halfRange_pos w
  rw [inSW_iff]; omega

/-- With nine bits or more, an 8-bit code is a word. -/
theorem le_halfRange {w : Nat} (h : 9 ≤ w) : 256 ≤ halfRange w := by
  unfold halfRange
  have : 2 ^ 8 ≤ 2 ^ (w - 1) := Nat.pow_le_pow_right (by decide) (by omega)
  exact_mod_cast this

/-- A free value is a W-bit value. -/
theorem inSW_toInt (w : Nat) (b : BitVec w) : inSW w b.toInt = true := by
  rw [inSW_iff]
  unfold halfRange
  have h1 := BitVec.le_toInt b
  have h2 := BitVec.toInt_lt (x := b)
  push_cast
  exact ⟨h1, h2⟩

theorem draw_inSW (s : State) : inSW s.cfg.width s.draw.2 = true := inSW_toInt _ _

theorem wrapSW_inSW (w : Nat) (n : Int) : inSW w (wrapSW w n) = true := by
  have h := halfRange_pos w
  rw [inSW_iff]
  unfold wrapSW
  have h1 := Int.emod_nonneg (n + halfRange w) (b := 2 * halfRange w) (by omega)
  have h2 := Int.emod_lt_of_pos (n + halfRange w) (b := 2 * halfRange w) (by omega)
  omega

/-- What `to_SW` answers is always a W-bit value. -/
theorem toSW_inSW (s : State) (n : Int) : inSW s.cfg.width (s.toSW n).2 = true := by
  unfold State.toSW
  split
  · assumption
  · split
    · exact draw_inSW s
    · exact wrapSW_inSW _ _

/-- `to_SW` can only spend a free value: every other field stays. -/
theorem toSW_state (s : State) (n : Int) : ∃ k, (s.toSW n).1 = { s with drawCount := k } := by
  unfold State.toSW
  split
  · exact ⟨s.drawCount, rfl⟩
  · split
    · exact ⟨s.drawCount + 1, rfl⟩
    · exact ⟨s.drawCount, rfl⟩

end Sys2Proof.Machine
end

