-- ==== Sys2Proof/Laws/Engine.lean ====
section
/-! SUPPORT. Laws/Engine.lean: for each shared operation, and for the step, one lemma that says everything it can do. -/

namespace Sys2Proof.Machine

/-! ## The end of a step -/

/-- `advancePC` changes PC, to `PC + 1` where that is a W-bit value, and at most spends a free value. -/
theorem advancePC_eq (s : State) : ∃ (p : Int) (k : Nat), s.advancePC = { s with PC := p, drawCount := k } ∧
    (inSW s.cfg.width (s.PC + 1) = true → p = s.PC + 1) ∧ inSW s.cfg.width p = true := by
  unfold State.advancePC
  split
  · next h => exact ⟨s.PC + 1, s.drawCount, rfl, fun _ => rfl, h⟩
  · next h => exact ⟨s.draw.2, s.drawCount + 1, rfl, fun h' => absurd h' h, draw_inSW s⟩

/-- `advanceIndex` moves the cursor by one, and completes the run at the end of the program. -/
theorem advanceIndex_eq (s : State) : ∃ (r : RunState) (b : Bool),
    s.advanceIndex = { s with currentIndex := s.currentIndex + 1, runState := r, running := b } ∧
    (s.currentIndex + 1 = s.program.length → r = .completed ∧ b = false) ∧
    (s.currentIndex + 1 ≠ s.program.length → r = s.runState ∧ b = s.running) := by
  unfold State.advanceIndex
  split
  · next h => exact ⟨.completed, false, rfl, fun _ => ⟨rfl, rfl⟩, fun h' => absurd h h'⟩
  · next h => exact ⟨s.runState, s.running, rfl, fun h' => absurd h' h, fun _ => ⟨rfl, rfl⟩⟩

/-- The end of a successful instruction: PC, the cursor, and at the end of the program the run state; nothing else. -/
theorem finish_eq (s : State) : ∃ (p : Int) (k : Nat) (r : RunState) (b : Bool),
    s.advancePC.advanceIndex =
      { s with PC := p, drawCount := k, currentIndex := s.currentIndex + 1, runState := r, running := b } ∧
    (inSW s.cfg.width (s.PC + 1) = true → p = s.PC + 1) ∧ inSW s.cfg.width p = true ∧
    (s.currentIndex + 1 = s.program.length → r = .completed ∧ b = false) ∧
    (s.currentIndex + 1 ≠ s.program.length → r = s.runState ∧ b = s.running) := by
  obtain ⟨p, k, h1, hp, hw⟩ := advancePC_eq s
  obtain ⟨r, b, h2, he, hn⟩ := advanceIndex_eq s.advancePC
  rw [h1] at h2 he hn
  exact ⟨p, k, r, b, by rw [h1, h2], hp, hw, he, hn⟩

/-! ## The Engine's effects -/

/-- The Engine's effect of an issued instruction, after its IR write. -/
def engineOf : Instr → State → EngineResult
  | .load r, s => engineLoad r s
  | .store r, s => engineStore r s
  | .mov r, s => engineMov r s
  | .sub r, s => engineSub r s
  | .add r, s => engineAdd r s
  | .movImm r v, s => engineMovImm r v s

/-- A step runs an instruction as the IR write, the Engine's effect and the end of the step. -/
theorem exec_eq (i : Instr) (s : State) : exec i s = retire (engineOf i (s.latchIR i.code)) := by
  cases i <;> rfl

/-- The port's dispatch is the effect of the instruction with no side-band. -/
theorem engineApply_eq (op : Operation) (r : Reg) (s : State) : engineApply op r s = engineOf (instrOf none op r) s := by
  cases op <;> rfl

/-- Everything STORE can do (42_store.md R170). -/
theorem engineStore_cases (r : Reg) (s : State) :
    (s.inUser (storeAddress r s) = true ∧ engineStore r s =
      .ok (State.setReg { s with mem := Cells.put 0 s.mem (storeAddress r s).toNat s.AC } r s.AC)) ∨
    (s.inUser (storeAddress r s) = false ∧ engineStore r s = .fail .E_STORE_PROT s) := by
  unfold engineStore
  obtain ⟨h, hw⟩ | ⟨h, hw⟩ := memWrite_cases s (storeAddress r s) s.AC none
  · exact .inl ⟨h, by rw [hw]; rfl⟩
  · exact .inr ⟨h, by rw [hw]⟩

/-- Everything ADD and SUB can do to the state: AC gets a W-bit value, and at most a free value is spent. -/
theorem setACnarrowed_eq (s : State) (n : Int) : ∃ k,
    s.setACnarrowed n = { s with AC := (s.toSW n).2, drawCount := k } := by
  obtain ⟨k, h⟩ := toSW_state s n
  exact ⟨k, by rw [State.setACnarrowed, h]; rfl⟩

/-- What no Engine effect touches: IR after its write, PC, the configuration, the labels, the sequencer, the parameters. -/
structure EngineKeeps (s t : State) : Prop where
  ir : t.IR = s.IR
  pc : t.PC = s.PC
  size : t.size = s.size
  osSize : t.osSize = s.osSize
  labels : t.labels = s.labels
  seq : SameSequencer s t

theorem EngineKeeps.setReg {s t : State} (h : EngineKeeps s t) (r : Reg) (v : Int) : EngineKeeps s (t.setReg r v) := by
  cases r <;> exact ⟨h.ir, h.pc, h.size, h.osSize, h.labels,
    h.seq.runState, h.seq.program, h.seq.currentIndex, h.seq.running, h.seq.lastFault, h.seq.cfg⟩

theorem engineOf_keeps (i : Instr) (s : State) : EngineKeeps s (engineOf i s).state := by
  have same : EngineKeeps s s := ⟨rfl, rfl, rfl, rfl, rfl, rfl, rfl, rfl, rfl, rfl, rfl⟩
  cases i with
  | load r => exact ⟨rfl, rfl, rfl, rfl, rfl, rfl, rfl, rfl, rfl, rfl, rfl⟩
  | mov r => exact same.setReg r s.AC
  | movImm r v => exact same.setReg r v
  | add r =>
    obtain ⟨k, h⟩ := setACnarrowed_eq s (s.AC + s.reg r)
    simp only [engineOf, engineAdd, EngineResult.state, h]
    exact ⟨rfl, rfl, rfl, rfl, rfl, rfl, rfl, rfl, rfl, rfl, rfl⟩
  | sub r =>
    obtain ⟨k, h⟩ := setACnarrowed_eq s (s.AC - s.reg r)
    simp only [engineOf, engineSub, EngineResult.state, h]
    exact ⟨rfl, rfl, rfl, rfl, rfl, rfl, rfl, rfl, rfl, rfl, rfl⟩
  | store r =>
    obtain ⟨_, h⟩ | ⟨_, h⟩ := engineStore_cases r s <;> simp only [engineOf, h, EngineResult.state]
    · have written : EngineKeeps s { s with mem := Cells.put 0 s.mem (storeAddress r s).toNat s.AC } :=
        ⟨rfl, rfl, rfl, rfl, rfl, rfl, rfl, rfl, rfl, rfl, rfl⟩
      exact written.setReg r s.AC
    · exact same

/-- What a successful instruction leaves: its Engine effect, then PC and the cursor advanced. -/
theorem finish_of_keeps {s u : State} (h : EngineKeeps s u) : ∃ t, u.advancePC.advanceIndex = t ∧ Advanced s t ∧
    (∀ q, t.reg q = u.reg q) ∧ t.AC = u.AC ∧ t.IR = u.IR ∧ t.mem = u.mem ∧ t.labels = s.labels ∧ t.size = s.size ∧
    t.osSize = s.osSize ∧ u.drawCount ≤ t.drawCount ∧ inSW s.cfg.width t.PC = true := by
  obtain ⟨p,k,r,b,he,hp,hw,h1,h2⟩ := finish_eq u
  have hk : u.drawCount ≤ u.advancePC.advanceIndex.drawCount := by
    have : u.advancePC.advanceIndex.drawCount = u.advancePC.drawCount := by unfold State.advanceIndex; split <;> rfl
    rw [this]; unfold State.advancePC; split <;> simp [State.draw]
  rw [h.seq.cfg] at hw
  refine ⟨_, rfl, ?_, ?_, ?_, ?_, ?_, ?_, ?_, ?_, hk, by rw [he]; exact hw⟩
  · rw [he]
    rw [h.seq.cfg, h.pc] at hp
    rw [h.seq.currentIndex, h.seq.program] at h1 h2
    rw [h.seq.runState, h.seq.running] at h2
    exact ⟨hp, by simp [h.seq.currentIndex], h1, h2, h.seq.lastFault, h.seq.program, h.seq.cfg⟩
  · intro q; rw [he]; cases q <;> rfl
  all_goals rw [he]
  · exact h.labels
  · exact h.size
  · exact h.osSize

theorem engineOf_ok_keeps {i : Instr} {s u : State} (h : engineOf i s = .ok u) : EngineKeeps s u := by
  have := engineOf_keeps i s
  rwa [h] at this

/-- The one failure of an issued instruction: a STORE outside the User region, which changes nothing. -/
theorem engineOf_fail {i : Instr} {s t : State} {e : ExecFault} (h : engineOf i s = .fail e t) :
    ∃ r, i = .store r ∧ e = .E_STORE_PROT ∧ t = s ∧ s.inUser (storeAddress r s) = false := by
  cases i with
  | store r =>
    obtain ⟨_, hs⟩ | ⟨hu, hs⟩ := engineStore_cases r s <;> rw [engineOf, hs] at h
    · cases h
    · cases h
      exact ⟨r, rfl, rfl, rfl, hu⟩
  | load r => cases h
  | mov r => cases h
  | add r => cases h
  | sub r => cases h
  | movImm r v => cases h

/-- A successful Engine effect keeps the words, or is that of a STORE into the User region. -/
theorem engineOf_mem {i : Instr} {s t : State} (h : engineOf i s = .ok t) :
    t.mem = s.mem ∨ ∃ r, i = .store r ∧ s.inUser (storeAddress r s) = true ∧
      t.mem = Cells.put 0 s.mem (storeAddress r s).toNat s.AC := by
  cases i with
  | store r =>
    obtain ⟨hu, hs⟩ | ⟨_, hs⟩ := engineStore_cases r s <;> rw [engineOf, hs] at h
    · cases h
      exact .inr ⟨r, rfl, hu, by simp⟩
    · cases h
  | load r => cases h; exact .inl rfl
  | mov r => cases h; exact .inl (by simp)
  | movImm r v => cases h; exact .inl (by simp)
  | add r =>
    obtain ⟨k, hk⟩ := setACnarrowed_eq s (s.AC + s.reg r)
    simp only [engineOf, engineAdd, hk] at h
    cases h; exact .inl rfl
  | sub r =>
    obtain ⟨k, hk⟩ := setACnarrowed_eq s (s.AC - s.reg r)
    simp only [engineOf, engineSub, hk] at h
    cases h; exact .inl rfl

/-! ## Decoding -/

theorem decode_encodeOp (op : Operation) (r : Reg) : decode (encodeOp op r) = .ok (op, r) := by
  cases op <;> cases r <;> rfl

/-- A code decodes only to the pair whose code it is. -/
theorem encodeOp_of_decode {code : BitVec 8} {op : Operation} {r : Reg} (h : decode code = .ok (op, r)) :
    encodeOp op r = code := by
  revert code op r
  have key : ∀ code : BitVec 8, (match decode code with | .ok p => decide (encodeOp p.1 p.2 = code) | .error _ => true) = true := by
    decide
  intro code op r h
  have := key code
  rw [h] at this
  simpa using this

theorem instrOf_code (imm : Option Int) (op : Operation) (r : Reg) : (instrOf imm op r).code = encodeOp op r := by
  cases op <;> cases imm <;> rfl

/-- What is issued carries the code of the instruction it decodes to. -/
theorem code_of_decodeIssue {b : Issue} {i : Instr} (h : decodeIssue b = .ok i) : i.code = b.code := by
  unfold decodeIssue at h
  split at h
  · cases h
  · next op r hd =>
    cases h
    rw [instrOf_code, encodeOp_of_decode hd]

/-- The port, given the bits of a code, runs that code. -/
theorem execute_codeBits (code : BitVec 8) (s : State) : execute (codeBits code) s = executeCode code s := by
  have value : ∀ code : BitVec 8, BitVec.ofNat 8 (bitsValue (codeBits code)) = code := by decide
  unfold execute
  rw [if_pos (show (codeBits code).length = 8 from rfl), value]

/-- The port runs a legal code as the effect of its instruction, after the IR write. -/
theorem executeCode_encodeOp (op : Operation) (r : Reg) (s : State) :
    executeCode (encodeOp op r) s = engineApply op r (s.latchIR (encodeOp op r)) := by
  unfold executeCode
  rw [decode_encodeOp]

/-! ## The step -/

/-- Everything a step that answers a next state can do: complete an exhausted program, take the fault of an illegal code,
or run an issued instruction to success or to its fault. -/
theorem step_cases {s t : State} (h : step s = .next t) :
    s.runnable = true ∧
    ((s.program[s.currentIndex]? = none ∧ t = s.complete) ∨
     ∃ ins, s.program[s.currentIndex]? = some ins ∧
       ((∃ e, decodeIssue (issueOf s.cfg ins) = .error e ∧ t = s.faulted ins.code (decodeFault e)) ∨
        ∃ i, decodeIssue (issueOf s.cfg ins) = .ok i ∧ i.code = ins.code ∧
          ((∃ u, engineOf i (s.latchIR ins.code).enterStepping = .ok u ∧ t = u.advancePC.advanceIndex) ∨
           (∃ r, i = .store r ∧ s.inUser (storeAddress r s) = false ∧ t = s.faulted ins.code .E_STORE_PROT)))) := by
  unfold step fetch at h
  by_cases hr : s.runnable = true
  · refine ⟨hr, ?_⟩
    rw [if_pos hr] at h
    cases hp : s.program[s.currentIndex]? with
    | none =>
      simp only [hp] at h
      cases h
      exact .inl ⟨rfl, rfl⟩
    | some ins =>
      simp only [hp] at h
      refine .inr ⟨ins, rfl, ?_⟩
      cases hd : decodeIssue (issueOf s.cfg ins) with
      | error e =>
        simp only [hd] at h
        cases h
        exact .inl ⟨e, rfl, rfl⟩
      | ok i =>
        simp only [hd] at h
        have hc : i.code = ins.code := code_of_decodeIssue hd
        refine .inr ⟨i, rfl, hc, ?_⟩
        rw [exec_eq, hc] at h
        change retire (engineOf i (s.latchIR ins.code).enterStepping) = .next t at h
        cases he : engineOf i (s.latchIR ins.code).enterStepping with
        | ok u =>
          rw [he] at h
          cases h
          exact .inl ⟨u, rfl, rfl⟩
        | fail e u =>
          rw [he] at h
          obtain ⟨r, hi, rfl, rfl, hu⟩ := engineOf_fail he
          cases h
          refine .inr ⟨r, hi, ?_, rfl⟩
          cases r <;> exact hu
  · rw [if_neg hr] at h
    cases h

end Sys2Proof.Machine
end

