-- ==== Sys2Proof/Laws/Load.lean ====
section
/-! SUPPORT. Laws/Load.lean: what writing a program image and starting it do. -/

namespace Sys2Proof.Machine

/-- Writing an image touches memory and labels only. -/
theorem writeImageFrom_eq (prog : List InstrObject) (i : Nat) (s : State) :
    ∃ m l, writeImageFrom i prog s = { s with mem := m, labels := l } := by
  induction prog generalizing i s with
  | nil => exact ⟨s.mem, s.labels, rfl⟩
  | cons ins rest ih =>
    simp only [writeImageFrom]
    obtain ⟨_, h⟩ | ⟨_, h⟩ := memWrite_cases s (s.userStart + i) (ins.code.toNat : Int) (some ins.text) <;> rw [h]
    · exact ih (i + 1) _
    · exact ih (i + 1) s

/-- A protected write of a word and its label in the User region, as reads see it. -/
theorem memWrite_label_reads {s : State} {a : Int} (hu : s.inUser a = true) (v : Int) (lbl : Text) :
    ∃ t, s.memWrite a v (some lbl) = some t ∧ t.size = s.size ∧ t.osSize = s.osSize ∧
      (∀ b, t.memRead b = if b = a then v else s.memRead b) ∧
      (∀ b, t.labelAt b = if b = a then lbl else s.labelAt b) := by
  obtain ⟨_, h⟩ | ⟨hn, _⟩ := memWrite_cases s a v (some lbl)
  · exact ⟨_, h, rfl, rfl, memRead_put (State.inMemory_of_inUser hu) rfl rfl,
      labelAt_putLabel (lbl := some lbl) (State.inMemory_of_inUser hu) rfl rfl⟩
  · rw [hu] at hn
    cases hn

/-- Writing an image that fits puts each code and line at its address, and leaves every other address. -/
theorem writeImageFrom_reads (prog : List InstrObject) (i : Nat) (s : State)
    (hfit : (s.osSize + i + prog.length : Int) ≤ s.size) :
    (∀ (k : Nat) ins, prog[k]? = some ins →
      (writeImageFrom i prog s).memRead (s.osSize + i + k) = (ins.code.toNat : Int) ∧
      (writeImageFrom i prog s).labelAt (s.osSize + i + k) = ins.text) ∧
    (∀ a : Int, a < s.osSize + i ∨ s.osSize + i + prog.length ≤ a →
      (writeImageFrom i prog s).memRead a = s.memRead a ∧ (writeImageFrom i prog s).labelAt a = s.labelAt a) := by
  induction prog generalizing i s with
  | nil => exact ⟨fun k ins h => by simp at h, fun a _ => ⟨rfl, rfl⟩⟩
  | cons ins rest ih =>
    simp only [List.length_cons] at hfit ⊢
    push_cast at hfit ⊢
    have hu : s.inUser (s.userStart + i) = true := by
      rw [State.inUser_iff]; unfold State.userStart; omega
    obtain ⟨s1, hw, hz, ho, hm, hl⟩ := memWrite_label_reads hu (ins.code.toNat : Int) ins.text
    simp only [writeImageFrom, hw, Option.getD_some]
    have hi := ih (i + 1) s1 (by push_cast; rw [ho, hz]; omega)
    rw [ho] at hi
    push_cast at hi
    constructor
    · intro k jns hk
      cases k with
      | zero =>
        simp at hk; subst hk
        have := hi.2 (s.osSize + i) (by omega)
        have e : (s.osSize + i : Int) = s.userStart + i := rfl
        push_cast
        rw [add_zero, this.1, this.2, hm, hl, if_pos e, if_pos e]
        exact ⟨rfl, rfl⟩
      | succ k =>
        simp at hk
        have := hi.1 k jns hk
        push_cast
        rw [show (s.osSize + i + (k + 1) : Int) = s.osSize + (i + 1) + k by omega]
        exact this
    · intro a ha
      have := hi.2 a (by omega)
      have hne : a ≠ s.userStart + i := by unfold State.userStart; omega
      rw [this.1, this.2, hm, hl, if_neg hne, if_neg hne]
      exact ⟨rfl, rfl⟩

/-- A load whose program fits has, before its first instruction, everything `ReadyToStart` says. -/
theorem readyToStart_of_fits (s : State) (first : InstrObject) (rest : List InstrObject)
    (hfit : ((first :: rest).length : Int) ≤ s.userSize) :
    ReadyToStart first rest s ((writeImage (first :: rest) s.engineReset).holdProgram first rest) := by
  have hlen : ((first :: rest).length : Int) ≤ s.size - s.osSize := hfit
  have hr := writeImageFrom_reads (first :: rest) 0 s.engineReset.clearUser
    (by simp only [State.clearUser_osSize, State.engineReset_osSize, State.clearUser_size, State.engineReset_size]; omega)
  obtain ⟨m, l, hk⟩ := writeImageFrom_eq (first :: rest) 0 s.engineReset.clearUser
  unfold writeImage
  have hm : ∀ a, s.engineReset.clearUser.memRead a = if (s.osSize : Int) ≤ a ∧ a < s.size then 0 else s.memRead a :=
    fun a => by rw [memRead_clearUser, memRead_congr (s := s) rfl rfl]; rfl
  have hl : ∀ a, s.engineReset.clearUser.labelAt a = if (s.osSize : Int) ≤ a ∧ a < s.size then [] else s.labelAt a :=
    fun a => by rw [labelAt_clearUser, labelAt_congr (s := s) rfl rfl]; rfl
  simp only [State.clearUser_osSize, State.engineReset_osSize, hm, hl, Nat.cast_zero, add_zero] at hr
  have hz : (writeImageFrom 0 (first :: rest) s.engineReset.clearUser).size = s.size := by rw [hk]; rfl
  refine ⟨hr.1, fun a ha => ?_, fun a ha => ?_, ?_, ?_, ?_, ?_, rfl, ?_, rfl, rfl, rfl, ?_, ?_⟩
  · by_cases hs : a < s.size
    · have inside : (s.osSize : Int) ≤ a ∧ a < s.size := by
        have := Int.natCast_nonneg (first :: rest).length
        omega
      have := hr.2 a (.inr ha)
      rw [if_pos inside, if_pos inside] at this
      exact this
    · exact ⟨memRead_outside _ (.inr (by simp only [State.holdProgram_size, hz]; omega)),
        labelAt_outside _ (.inr (by simp only [State.holdProgram_size, hz]; omega))⟩
  · have outside : ¬ ((s.osSize : Int) ≤ a ∧ a < s.size) := by omega
    have := hr.2 a (.inl ha)
    rw [if_neg outside, if_neg outside] at this
    exact this
  · exact hz
  · rw [hk]; rfl
  · intro r; rw [hk]; cases r <;> rfl
  · rw [hk]; rfl
  · rw [hk]; rfl
  · rw [hk]; rfl
  · rw [hk]; rfl

/-- The first instruction under `FIRST_AT_LOAD = skip`: only MOV-with-immediate has an effect. -/
theorem firstAtLoad_skip (f : InstrObject) (s : State) (h : s.cfg.firstAtLoad = .skip) :
    firstAtLoad f s = (if isMovImm s.cfg f = true then s.setReg f.reg (f.imm.getD 0) else s).enterLoaded := by
  unfold firstAtLoad
  cases hm : isMovImm s.cfg f with
  | false => simp [h]
  | true =>
    cases hi : f.imm with
    | none => simp [isMovImm, immPresent, hi] at hm
    | some v => simp

/-- A first MOV-with-immediate takes effect at load under every `FIRST_AT_LOAD`. -/
theorem firstAtLoad_movImm (f : InstrObject) (s : State) (h : isMovImm s.cfg f = true) :
    firstAtLoad f s = (s.setReg f.reg (f.imm.getD 0)).enterLoaded := by
  unfold firstAtLoad
  cases hi : f.imm with
  | none => simp [isMovImm, immPresent, hi] at h
  | some v => simp [h]

/-- The first instruction under `FIRST_AT_LOAD = execute`: the port runs any that is not MOV-with-immediate. -/
theorem firstAtLoad_execute (f : InstrObject) (s : State) (h : s.cfg.firstAtLoad = .execute)
    (hm : isMovImm s.cfg f = false) :
    firstAtLoad f s = match executeCode f.code s with
      | .ok t => t.enterLoaded
      | .fail e t => t.haltAtLoad e := by
  unfold firstAtLoad
  cases f.imm <;> rw [hm] <;> dsimp only <;> rw [h] <;> rfl

/-- A command that loads a program that fits commits it. -/
theorem command_of_loadsProgram {c : Command} {s : State} {first : InstrObject} {rest : List InstrObject}
    (hc : LoadsProgram c s (first :: rest)) (hfit : ((first :: rest).length : Int) ≤ s.userSize) :
    command c s = (.ok, commitLoad first rest s) := by
  have hn : ¬ ((first :: rest).length : Int) > s.userSize := by omega
  obtain ⟨lines, rfl, hp⟩ | ⟨rfl, hp⟩ := hc
  · simp only [command, loadLines, hp, loadParsed, if_neg hn]
  · simp only [command, hostReset, hp, loadParsed, if_neg hn]

end Sys2Proof.Machine
end

