-- ==== Sys2Proof/Laws/PerInstr.lean ====
section
/-! SUPPORT. Laws/PerInstr.lean: statements about every instruction as syntax, one lemma per constructor. -/

/-- The code of an instruction holds its operation's nibble above its register's (30_encoding.md R91, R94). -/
def Sys2Proof.Laws.CodeNibbles.Statement (i : Sys2Proof.Instr) : Prop :=
  Sys2Proof.opField i.code = Sys2Proof.opNibble i.operation ∧ Sys2Proof.regField i.code = Sys2Proof.regNibble i.register

namespace Sys2Proof.Laws.CodeNibbles

theorem load (r : Reg) : Statement (.load r) := by cases r <;> exact ⟨rfl, rfl⟩
theorem store (r : Reg) : Statement (.store r) := by cases r <;> exact ⟨rfl, rfl⟩
theorem mov (r : Reg) : Statement (.mov r) := by cases r <;> exact ⟨rfl, rfl⟩
theorem sub (r : Reg) : Statement (.sub r) := by cases r <;> exact ⟨rfl, rfl⟩
theorem add (r : Reg) : Statement (.add r) := by cases r <;> exact ⟨rfl, rfl⟩
theorem movImm (r : Reg) (v : Int) : Statement (.movImm r v) := mov r

end Sys2Proof.Laws.CodeNibbles
end

