-- ==== Sys2Proof/Tests/Slice0.lean ====
section
/-! SUPPORT. Tests/Slice0.lean: well-formedness smoke tests, decoding of written-out words, one-step tests whose expected
results are the rows of spec/95_test_vectors.md, and for each statement with hypotheses a witness that meets them. -/

namespace Sys2Proof.Tests

open Sys2Proof Sys2Proof.Machine

/-! ## Helpers -/

/-- What `f` shows of the next state; none where there is none. -/
def see {α : Type} (f : State → α) : StepOutcome → Option α
  | .next t => some (f t)
  | .fault _ => none
  | .refused _ => none

/-- What `f` shows of the state after a success of the Engine's port; none after a failure. -/
def seeOk {α : Type} (f : State → α) : EngineResult → Option α
  | .ok t => some (f t)
  | .fail _ _ => none

/-- The start state of 95_test_vectors.md 2.4: size 20, osSize 5, and these registers. -/
def bench : State := { State.reset with AX := 3, BX := -2, CX := 0, DX := 100, AC := 10, IR := 0x11#8 }

/-- The object of a line without an immediate. -/
def object (op : Operation) (r : Reg) : InstrObject :=
  { op := op, reg := r, imm := none, code := encodeOp op r, text := opName op ++ [' '] ++ regName r }

/-- `s` in LOADED with the cursor on the second object of a program. -/
def onSecond (s : State) (first second : InstrObject) : State :=
  { s with program := [first, second], currentIndex := 1, runState := .loaded, PC := 6 }

/-- `bench` about to run STORE BX, which faults: BX is -2 (95_test_vectors.md 2.6). -/
def faulting : State := onSecond bench (object .mov .BX) (object .store .BX)

/-- `bench` about to run STORE AX, which writes word 8 (95_test_vectors.md 2.6). -/
def storing : State := onSecond bench (object .mov .BX) (object .store .AX)

/-- `bench` on an object whose code is `code`. -/
def onCode (code : BitVec 8) : State :=
  onSecond bench (object .mov .BX) { op := .load, reg := .AX, imm := none, code := code, text := [] }

/-- The default parameters with the wrap policy. -/
def wrapping : State := { bench with cfg := { Config.default with ovfMode := .wrap } }

/-- `bench` under `FIRST_AT_LOAD = execute`. -/
def executing : State := { bench with cfg := { Config.default with firstAtLoad := .execute } }

/-! ## Well-formedness: one ill-formed term for each check -/

theorem test_wf_default : Config.default.wf = true := by decide
theorem test_wf_width : Config.wf { Config.default with width := 8, maxSize := 100 } = false := by decide
theorem test_wf_maxSize : Config.wf { Config.default with maxSize := 2147483648 } = false := by decide
theorem test_wf_immMax : Config.wf { Config.default with immMax := 128 } = false := by decide
theorem test_wf_resizeDiv : Config.resizeSound { Config.default with resizeDiv := 1 } = false := by decide
theorem test_wf_resizeMinOs : Config.resizeSound { Config.default with resizeMinOs := 4 } = false := by decide
theorem test_wf_resizeUser : Config.resizeSound { Config.default with resizeMinOs := 11 } = false := by decide
theorem test_wf_minUser : Config.resizeSound { Config.default with minUser := 11, resizeMinOs := 9 } = false := by decide
theorem test_wf_size0 : Config.powerOnSound { Config.default with size0 := 19 } = false := by decide
theorem test_wf_osSize0 : Config.powerOnSound { Config.default with osSize0 := 4 } = false := by decide
theorem test_wf_user0 : Config.powerOnSound { Config.default with osSize0 := 11 } = false := by decide
theorem test_wf_size0_max : Config.powerOnSound { Config.default with maxSize := 19 } = false := by decide
theorem test_wf_os0_positive : Config.powerOnSound { Config.default with minOs := 0, osSize0 := 0 } = false := by decide
theorem test_wf_size0_positive :
    Config.powerOnSound { Config.default with minSize := 0, minOs := 1, minUser := 0, size0 := 0, osSize0 := 1 } = false := by
  decide
theorem test_wf_instr_ends : Instr.wf Config.default (.movImm .AX 2147483647) = true ∧
    Instr.wf Config.default (.movImm .AX (-2147483648)) = true := by decide
theorem test_wf_instr_high : Instr.wf Config.default (.movImm .AX 2147483648) = false := by decide
theorem test_wf_instr_low : Instr.wf Config.default (.movImm .AX (-2147483649)) = false := by decide
theorem test_memory_wf_order : Memory.wf [(7, 1), (5, 2)] = false := by decide
theorem test_memory_wf_default : Memory.wf [(5, 0)] = false := by decide
theorem test_labels_wf_default : Labels.wf [(5, [])] = false := by decide

/-! ## Decoding of words written out (30_encoding.md R91 to R95), every constructor -/

theorem test_decode_load : decodeTableWord 8 0b00010010 = some (.load .BX) := by decide
theorem test_decode_store : decodeTableWord 8 0b00100100 = some (.store .DX) := by decide
theorem test_decode_mov : decodeTableWord 8 0b00110011 = some (.mov .CX) := by decide
theorem test_decode_sub : decodeTableWord 8 0b01000011 = some (.sub .CX) := by decide
theorem test_decode_add : decodeTableWord 8 0b01010010 = some (.add .BX) := by decide
theorem test_decode_movImm : decodeIssue { code := 0b00110010#8, imm := some 200 } = .ok (.movImm .BX 200) := by decide
theorem test_decode_add_ignores_sideband :
    decodeIssue { code := 0b01010001#8, imm := some 5 } = .ok (.add .AX) := by decide
theorem test_decode_bad : decode 0x61#8 = .error .badOpcode ∧ decode 0xF0#8 = .error .badOpcode ∧
    decode 0x10#8 = .error .badRegister ∧ decode 0x5F#8 = .error .badRegister := by decide
theorem test_decode_twenty : ((List.range 256).filter (fun n => (decodeTableWord 8 n).isSome)).length = 20 := by decide
theorem test_encode_codes : encodeOp .load .BX = 18#8 ∧ encodeOp .store .DX = 36#8 ∧ encodeOp .mov .AX = 49#8 ∧
    encodeOp .sub .CX = 67#8 ∧ encodeOp .add .BX = 82#8 := by decide
theorem test_table_word_length : decodeTableWord 7 0b00010010 = none ∧ decodeTableWord 8 0x10 = none := by decide

/-! ## IMM8, lines, sources (95_test_vectors.md 2.2, 2.3, 2.8) -/

theorem test_imm8_positive : encodeImmediate Config.default 10 = 0b00001010#8 ∧
    encodeImmediate Config.default 200 = 0b01111111#8 := by decide
theorem test_imm8_negative : encodeImmediate Config.default (-1) = 0b10000001#8 ∧
    encodeImmediate Config.default (-2147483648) = 0b11111111#8 := by decide
theorem test_parse_case : (match parse Config.default "mov ax, 10".toList with
    | .ok ins => decide (ins.op = .mov ∧ ins.reg = .AX ∧ ins.imm = some 10 ∧ ins.code = 0x31#8)
    | .error _ => false) = true := by decide
theorem test_parse_trim : (match parse Config.default "  LOAD bx  ".toList with
    | .ok ins => decide (ins.imm = none ∧ ins.code = 0x12#8)
    | .error _ => false) = true := by decide
theorem test_parse_errors :
    parse Config.default "ADD".toList = .error .tooFewTokens ∧
    parse Config.default "JMP AX".toList = .error .unknownOperation ∧
    parse Config.default "LOAD AC".toList = .error .unknownRegister ∧
    parse Config.default "MOV AX, 1, 2".toList = .error .tooManyTokens := by decide
theorem test_parse_immediates :
    parse Config.default "MOV AX, 2147483648".toList = .error .badImmediate ∧
    parse Config.default "MOV AX, 0x10".toList = .error .badImmediate ∧
    parse Config.default "MOV AX, ten".toList = .error .badImmediate ∧
    validate Config.default "MOV AX, -2147483648".toList = true := by decide
theorem test_comments : isComment "; comment".toList = true ∧ isComment "// c".toList = true ∧
    isComment "   ".toList = true ∧ isComment "ADD AX ; note".toList = false := by decide
theorem test_bad_source : parseSource Config.default 1 ["; x".toList, "add ax".toList, "MOV EX".toList] =
    .error { number := 3, line := "MOV EX".toList } := by decide

/-! ## One step or one presented code (95_test_vectors.md 2.4 to 2.6) -/

theorem test_load_ax : see (fun t => (t.AC, t.IR, t.AX)) (exec (.load .AX) bench) = some (3, 0x11#8, 3) := by decide
theorem test_load_negative : see (fun t => (t.AC, t.PC)) (exec (.load .BX) bench) = some (-2, 6) := by decide
theorem test_mov_dx : see (fun t => (t.DX, t.AC, t.IR)) (exec (.mov .DX) bench) = some (10, 10, 0x34#8) := by decide
theorem test_mov_cx : seeOk (fun t => (t.CX, t.PC)) (executeCode 0b00110011#8 bench) = some (10, 5) := by decide
theorem test_add_bx : see (fun t => (t.AC, t.BX)) (exec (.add .BX) bench) = some (8, -2) := by decide
theorem test_add_wraps : see (fun t => t.AC) (exec (.add .AX) { wrapping with AC := 2147483647, AX := 1 }) =
    some (-2147483648) := by decide
theorem test_sub_dx : see (fun t => (t.AC, t.DX)) (exec (.sub .DX) bench) = some (-90, 100) := by decide
theorem test_sub_wraps : see (fun t => t.AC) (exec (.sub .AX) { wrapping with AC := 0, AX := -2147483648 }) =
    some (-2147483648) := by decide
theorem test_store_last_word :
    see (fun t => (t.memRead 19, t.AX, t.IR)) (exec (.store .AX) { bench with AX := 14 }) = some (10, 10, 0x21#8) := by
  decide
theorem test_store_protected : see (fun t => (t.lastFault, t.BX, t.memRead 3)) (exec (.store .BX) bench) =
    some (some .E_STORE_PROT, -2, 0) := by decide
theorem test_movImm_full : see (fun t => (t.BX, t.AC, t.IR)) (exec (.movImm .BX 200) bench) = some (200, 10, 0x32#8) := by
  decide
theorem test_movImm_zero : see (fun t => t.BX)
    (step (onSecond bench (object .mov .AX) { object .mov .BX with imm := some 0 })) = some 0 := by decide
theorem test_execute_seven : execute [false, false, false, true, false, false, true] bench = .fail .E_LEN bench := by
  decide
theorem test_execute_both_bad :
    execute [true, true, true, true, false, false, false, false] bench = .fail .E_OPCODE { bench with IR := 0xF0#8 } := by
  decide

theorem test_execute_command : command (.execute "00010010".toList) bench = (.ok, { bench with AC := -2, IR := 0x12#8 }) := by
  decide
theorem test_read_word : command (.read 8) { bench with mem := [(8, 10)] } = (.word 10, { bench with mem := [(8, 10)] }) := by
  decide

/-! ## Memory, loading and the host (95_test_vectors.md 2.7, 2.8, section 3) -/

theorem test_write_bounds : (bench.memWrite 4 7 none).isNone = true ∧ (bench.memWrite 5 7 none).isSome = true ∧
    (bench.memWrite 19 7 none).isSome = true ∧ (bench.memWrite 20 7 none).isNone = true := by decide
theorem test_resize_os : (bench.resize 54).map (fun t => t.osSize) = some 10 ∧
    (bench.resize 55).map (fun t => t.osSize) = some 11 ∧ bench.resize 19 = none := by decide
theorem test_configure_bounds : (bench.configure 20 10).isSome = true ∧ bench.configure 20 11 = none ∧
    bench.configure 20 4 = none ∧ bench.configure (-20) 5 = none := by decide
theorem test_load_image : (fun t : State => (t.memRead 5, t.memRead 6, t.memRead 7, t.AX, t.IR, t.PC))
    (command (.loadProgram (some ["MOV AX,10".toList, "ADD AX".toList, "STORE AX".toList])) State.reset).2 =
    (49, 81, 33, 10, 0x31#8, 6) := by decide
theorem test_load_execute_first : (fun t : State => (t.memRead 5, t.IR, t.currentIndex))
    (command (.loadProgram (some ["STORE AX".toList, "MOV BX, 3".toList]))
      (State.powerOn { Config.default with firstAtLoad := .execute })).2 = (0, 0x21#8, 1) := by decide
theorem test_load_empty : command (.loadProgram (some ["; c".toList])) bench = (.fail .loadEmpty, bench) := by decide
theorem test_fetch_word : see (fun t => (t.AC, t.runState)) (step (State.reset.withFetchWord 8 0x11)) =
    some (0, .completed) := by decide
theorem test_fetch_illegal_word : see (fun t => (t.lastFault, t.IR)) (step (State.reset.withFetchWord 8 0x10)) =
    some (some .E_REG, 0x10#8) := by decide

/-! ## The canonical form and the invariant hold somewhere -/

theorem reset_memory_wf : Memory.wf State.reset.mem = true ∧ Labels.wf State.reset.labels = true := by decide

/-- A state of the invariant builds from checks that compute. -/
theorem inv_of_checks {s : State} (h1 : s.cfg.wf = true)
    (h2 : s.cfg.minSize ≤ s.size ∧ s.cfg.minOs ≤ s.osSize ∧ s.osSize + s.cfg.minUser ≤ s.size ∧ s.size ≤ s.cfg.maxSize)
    (h3 : ∀ r ∈ [Reg.AX, .BX, .CX, .DX], inSW s.cfg.width (s.reg r) = true)
    (h4 : inSW s.cfg.width s.AC = true ∧ inSW s.cfg.width s.PC = true) (h5 : s.mem = [] ∧ s.labels = [])
    (h6 : ∀ ins ∈ s.program, ins.code = encodeOp ins.op ins.reg ∧ ins.imm = none)
    (h7 : s.runState = .loaded ∧ s.currentIndex = 1 ∧ s.program.length = 2 ∧ s.lastFault = none) : s.Inv where
  params := h1
  config := ⟨h2.1, h2.2.1, h2.2.2.1⟩
  sizeBound := h2.2.2.2
  regs := fun r => h3 r (by cases r <;> simp)
  ac := h4.1
  pc := h4.2
  memWf := by rw [h5.1]; rfl
  memCells := by rw [h5.1]; intro c hc; cases hc
  labelsWf := by rw [h5.2]; rfl
  labelCells := by rw [h5.2]; intro c hc; cases hc
  parsed := fun ins hi => ⟨(h6 ins hi).1, fun v hv => by rw [(h6 ins hi).2] at hv; cases hv⟩
  cursor := by
    obtain ⟨hr, hc, hp, _⟩ := h7
    refine ⟨by omega, fun _ => hc, ?_, ?_, ?_⟩ <;> rw [hr] <;> intro h <;> cases h
  running := fun _ => by simp [State.runnable, h7.1]
  faultKept := by simp [h7.1, h7.2.2.2]
  idle := by
    rw [h7.1]
    constructor
    · intro h
      cases h
    · intro h
      have hp := h7.2.2.1
      rw [h] at hp
      cases hp

theorem faulting_inv : faulting.Inv := inv_of_checks (by decide) (by decide) (by decide) (by decide) ⟨rfl, rfl⟩ (by decide)
  (by decide)

theorem storing_inv : storing.Inv := inv_of_checks (by decide) (by decide) (by decide) (by decide) ⟨rfl, rfl⟩ (by decide)
  (by decide)

/-! ## Witnesses: each meets all hypotheses of the statement it is named after -/

theorem witness_DecodeAndEncodeAgree :
    decodeIssue { code := 0x31#8, imm := some 7 } = .ok (.movImm .AX 7) ∧
    parse Config.default "SUB DX".toList = .ok (object .sub .DX) ∧ encode (.load .AX) = encode (.load .AX) := by decide

theorem witness_Imm8IsSignedMagnitude : Config.default.immMax ≤ 127 ∧ 1 ≤ Config.default.immMax := by decide

theorem witness_ParsedLineDecodesToItsPair : parse Config.default "ADD BX".toList = .ok (object .add .BX) := by decide

theorem witness_TwoTokenLinesAssemble :
    (∀ x ∈ [' '], isWhite x = true) ∧ (∀ x ∈ ['\t'], isWhite x = true) ∧ [',', ' '] ≠ [] ∧
    (∀ x ∈ [',', ' '], x = ' ' ∨ x = '\t' ∨ x = ',') ∧ "aDd".toList.map upper = opName .add ∧
    "bx".toList.map upper = regName .BX :=
  ⟨by simp [isWhite], by simp [isWhite], by simp, by simp, by decide, by decide⟩

theorem witness_DecimalImmediatesAssemble :
    digitsValue 0 "256".toList = some 256 ∧ "256".toList ≠ [] ∧ inSW 9 (-256) = true ∧ inSW 9 256 = false ∧
    digitsValue 0 "0".toList = some 0 := by decide

theorem witness_BadSourceNamesItsFirstMalformedLine :
    parseSource Config.default 1 ["; x".toList, "add ax".toList, "MOV EX".toList] =
      .error { number := 3, line := "MOV EX".toList } ∧
    (1 < 3 - 1 ∧ ["; x".toList, "add ax".toList, "MOV EX".toList][1]? = some "add ax".toList) := by decide

theorem witness_WrongLengthCodesChangeNothing : ([] : List Bool).length ≠ 8 ∧ (List.replicate 9 true).length ≠ 8 := by
  decide

theorem witness_EveryEightBitCodeIsLatched : (List.replicate 8 true).length = 8 := by decide

theorem witness_UnknownOperationFaults : (0x0F#8).toNat / 16 = 0 ∧ 5 < (0x61#8).toNat / 16 := by decide

theorem witness_UnknownRegisterFaults :
    (1 ≤ (0x10#8).toNat / 16 ∧ (0x10#8).toNat / 16 ≤ 5 ∧ (0x10#8).toNat % 16 = 0) ∧
    (1 ≤ (0x55#8).toNat / 16 ∧ (0x55#8).toNat / 16 ≤ 5 ∧ 4 < (0x55#8).toNat % 16) := by decide

theorem witness_ExecutePortRunsLegalCodes :
    (bench.AC + bench.reg .AX = 13 ∧ inSW bench.cfg.width 13 = true ∧ inSW bench.cfg.width 2147483648 = false ∧
      bench.cfg.ovfMode = .any ∧ wrapping.cfg.ovfMode = .wrap) ∧
    (storeAddress .CX bench = 5 ∧ (5 : Int) = bench.osSize + bench.reg .CX ∧ (5 : Int) < bench.size) ∧
    (bench.osSize : Int) + bench.reg .BX < bench.osSize ∧ (bench.size : Int) ≤ bench.osSize + bench.reg .DX := by decide

theorem witness_ExecuteCommandIsThePort :
    (seeOk (fun t => t.AC) (execute [false, false, false, true, false, false, true, false] bench) = some (-2)) ∧
    execute [] bench = .fail .E_LEN bench ∧ (∃ x ∈ ['0', '2'], x ≠ '0' ∧ x ≠ '1') :=
  ⟨by decide, by decide, '2', by simp, by decide, by decide⟩

theorem witness_LoadCopiesRegisterToAc : (0#4).toNat = 0 ∧ 4 < (5#4).toNat := by decide

theorem witness_MovCopiesAcToRegister : (0#4).toNat = 0 ∧ 4 < (15#4).toNat := by decide

theorem witness_AddPutsSumInAc :
    inSW bench.cfg.width (bench.AC + bench.reg .AX) = true ∧
    (inSW 32 (2147483647 + 1) = false ∧ bench.cfg.ovfMode = .any) ∧ wrapping.cfg.ovfMode = .wrap := by decide

theorem witness_SubPutsDifferenceInAc :
    inSW bench.cfg.width (bench.AC - bench.reg .AX) = true ∧
    (inSW 32 (-2147483648 - 1) = false ∧ bench.cfg.ovfMode = .any) ∧ wrapping.cfg.ovfMode = .wrap := by decide

theorem witness_StoreWritesUserWordOrFaults :
    (storeAddress .CX bench = 5 ∧ (5 : Int) = bench.osSize + bench.reg .CX ∧ (bench.osSize : Int) ≤ 5 ∧
      (5 : Int) < bench.size) ∧
    (bench.osSize : Int) + bench.reg .BX < bench.osSize ∧ (bench.size : Int) ≤ bench.osSize + bench.reg .DX ∧
    4 < (5#4).toNat := by decide

theorem witness_StoreWritesUserWordOrFaults_last :
    storeAddress .AX { bench with AX := 14 } = 19 ∧ (19 : Int) < bench.size := by decide

theorem witness_EveryInstructionAnswersANextState : inSW bench.cfg.width bench.PC = true := by decide

theorem witness_StepRunsTheIssuedInstruction :
    (storing.runState = .loaded ∨ storing.runState = .stepping) ∧
    storing.program[storing.currentIndex]? = some (object .store .AX) ∧
    decodeIssue
      { code := (object .store .AX).code
        imm := if isMovImm storing.cfg (object .store .AX) then (object .store .AX).imm else none } =
      .ok (.store .AX) := by decide

theorem witness_StepTakesTheFaultOfAnIllegalCode :
    ((onCode 0x61#8).runState = .loaded ∧
      (onCode 0x61#8).program[(onCode 0x61#8).currentIndex]?.map (fun i => i.code) = some 0x61#8) ∧
    5 < (0x61#8).toNat / 16 ∧ 1 ≤ (0x15#8).toNat / 16 ∧ (0x15#8).toNat / 16 ≤ 5 ∧ 4 < (0x15#8).toNat % 16 := by decide

theorem witness_StepAtTheEndCompletes :
    (fun s : State => s.runState = .loaded ∧ s.program.length ≤ s.currentIndex)
      { bench with program := [object .add .AX], currentIndex := 1, runState := .loaded } := by decide

theorem witness_StepAndRunRefusedWhenNotRunnable :
    bench.runState = .idle ∧ (faulting.takeFault .E_STORE_PROT).runState = .halted ∧
    storing.complete.runState = .completed := by decide

theorem witness_FaultEntryIsPrecise :
    faulting.runState = .loaded ∧ faulting.program[faulting.currentIndex]? = some (object .store .BX) ∧
    isMovImm faulting.cfg (object .store .BX) = false ∧
    execute (codeBits (object .store .BX).code) faulting = .fail .E_STORE_PROT { faulting with IR := 0x22#8 } ∧
    step faulting = .next (faulting.faulted 0x22#8 .E_STORE_PROT) ∧
    (faulting.faulted 0x22#8 .E_STORE_PROT).runState = .halted := ⟨rfl, rfl, rfl, by decide, rfl, rfl⟩

/-- Both outcomes of a step with an instruction left: `storing` succeeds, `faulting` halts. -/
theorem witness_NoStepTransfersControl :
    see (fun t => t.runState) (step storing) = some .completed ∧ storing.currentIndex < storing.program.length ∧
    see (fun t => t.runState) (step faulting) = some .halted ∧ faulting.currentIndex < faulting.program.length ∧
    inSW storing.cfg.width (storing.PC + 1) = true := by decide

theorem witness_ReachableStepsFaultOnlyByStore : faulting.Inv ∧
    see (fun t => t.runState) (step faulting) = some .halted := ⟨faulting_inv, by decide⟩

theorem witness_OnlyStoreChangesAWord :
    see (fun t => decide (t.memRead 8 ≠ storing.memRead 8)) (step storing) = some true := by decide

theorem witness_StepKeepsPcAtTheCursor : storing.Inv ∧ (storing.program.length : Int) ≤ storing.userSize ∧
    storing.PcTracksCursor ∧ see (fun t => t.PC) (step storing) = some 7 :=
  ⟨storing_inv, by decide, by unfold State.PcTracksCursor; decide, by decide⟩

theorem witness_StepIgnoresMemoryContent : (see (fun t => t.AX) (step storing)).isSome = true := by decide

theorem witness_ProtectedWriteReachesOnlyUserWords :
    ((bench.osSize : Int) ≤ 5 ∧ (5 : Int) < bench.size) ∧ ((bench.osSize : Int) ≤ 19 ∧ (19 : Int) < bench.size) ∧
    ¬ ((bench.osSize : Int) ≤ 4 ∧ (4 : Int) < bench.size) ∧ ¬ ((bench.osSize : Int) ≤ 20 ∧ (20 : Int) < bench.size) := by
  decide

theorem witness_InstructionsNeverChangeTheOsRegion :
    (see (fun t => t.AX) (step storing)).isSome = true ∧ (0 : Int) ≤ bench.osEnd ∧ (4 : Int) ≤ storing.osEnd ∧
    (4 : Int) < bench.osSize ∧ (bench.size : Int) ≤ 20 := by decide

theorem witness_ProtectedWriteIsIdempotent : (bench.memWrite 5 7 none).isSome = true := by decide

theorem witness_ReadNeverFailsOrChangesState : ((0 : Int) ≤ 0 ∧ (0 : Int) < bench.size) ∧ (19 : Int) < bench.size ∧
    (-1 : Int) < 0 ∧ (bench.size : Int) ≤ 20 := by decide

theorem witness_ForceWriteReachesEveryWord : inSW bench.cfg.width 9 = true ∧ ((0 : Int) ≤ 0 ∧ (0 : Int) < bench.size) ∧
    (19 : Int) < bench.size ∧ ((-1 : Int) < 0 ∨ (bench.size : Int) ≤ -1) ∧ (bench.size : Int) ≤ 20 := by decide

theorem witness_ClearUserClearsExactlyTheUserRegion :
    ((bench.osSize : Int) ≤ 5 ∧ (5 : Int) < bench.size) ∧ ((0 : Int) ≤ 4 ∧ (4 : Int) < bench.osSize) := by decide

theorem witness_ResizeKeepsThePrefix :
    ((bench.cfg.minSize : Int) ≤ 20 ∧ (20 : Int) ≤ bench.cfg.maxSize) ∧ (2147483647 : Int) ≤ bench.cfg.maxSize ∧
    (19 : Int) < bench.cfg.minSize ∧ (bench.cfg.maxSize : Int) < 2147483648 ∧
    ((bench.size : Int) ≤ 20 ∧ (0 : Int) < bench.size) := by decide

theorem witness_ConfigureStartsAfresh :
    configLegal bench.cfg 20 5 = true ∧ configLegal bench.cfg 20 10 = true ∧ configLegal bench.cfg 19 5 = false ∧
    configLegal bench.cfg 20 11 = false := by decide

theorem witness_RegionsPartitionTheMemory : bench.osSize ≤ bench.size := by decide

theorem witness_PowerOnIsConfigure : Config.default.wf = true ∧ bench.cfg = Config.default ∧ bench.drawCount = 0 := by
  decide

theorem witness_LoadLeavesTheImageAndLoaded : bench.cfg.firstAtLoad = .skip ∧
    parseSource bench.cfg 1 ["ADD AX".toList, "STORE AX".toList] = .ok [object .add .AX, object .store .AX] ∧
    ((2 : Nat) : Int) ≤ bench.userSize := by decide

/-- A source whose first instruction is MOV-with-immediate, under `FIRST_AT_LOAD = execute`. -/
theorem witness_LoadLeavesTheImageAndLoaded_movImm :
    parseSource executing.cfg 1 ["MOV AX 7".toList] =
      .ok [{ object .mov .AX with imm := some 7, text := "MOV AX 7".toList }] ∧
    isMovImm executing.cfg { object .mov .AX with imm := some 7, text := "MOV AX 7".toList } = true ∧
    ((1 : Nat) : Int) ≤ executing.userSize := by decide

theorem witness_LoadExecutesTheFirstInstruction :
    LoadsProgram (.loadProgram (some ["STORE AX".toList])) executing [object .store .AX] ∧
    ((1 : Nat) : Int) ≤ executing.userSize ∧ isMovImm executing.cfg (object .store .AX) = false ∧
    executing.cfg.firstAtLoad = .execute ∧
    (command (.loadProgram (some ["STORE AX".toList])) executing).2.runState = .loaded :=
  ⟨.inl ⟨_, rfl, by decide⟩, by decide, by decide, rfl, by decide⟩

/-- The fault arm: a held program whose first code is illegal. -/
theorem witness_LoadExecutesTheFirstInstruction_fault :
    LoadsProgram .reset { executing with program := [{ object .load .AX with code := 0x15#8 }] }
      [{ object .load .AX with code := 0x15#8 }] ∧
    (fun t : State => (t.runState, t.currentIndex, t.lastFault))
      (command .reset { executing with program := [{ object .load .AX with code := 0x15#8 }] }).2 =
      (.halted, 0, some .E_REG) := ⟨.inr ⟨rfl, rfl⟩, by decide⟩

theorem witness_LoadRefusesBadSources :
    parseSource bench.cfg 1 ["MOV EX".toList] = .error { number := 1, line := "MOV EX".toList } ∧
    (∀ line ∈ ["; x".toList, "".toList], isComment line = true) ∧
    (match parseSource bench.cfg 1 (List.replicate 16 "ADD AX".toList) with
      | .ok prog => decide (bench.userSize < (prog.length : Int))
      | .error _ => false) = true := by decide

theorem witness_FailedHostCommandsChangeNothing : command (.resize 19) bench = (.fail .resizeRejected, bench) ∧
    ∀ e, Reason.resizeRejected ≠ .exec e := ⟨by decide, fun _ h => by cases h⟩

/-- A halted state, and a command of each kind that leaves HALTED. -/
theorem witness_HaltedIsSticky : (faulting.takeFault .E_STORE_PROT).runState = .halted ∧
    (command .reset (faulting.takeFault .E_STORE_PROT)).2.runState = .loaded ∧
    ({ storing with running := true } : State).running = true := by decide

theorem witness_ResetReloadsTheHeldProgram :
    storing.program ≠ [] ∧ parseSource storing.cfg 1 ["MOV BX".toList, "STORE AX".toList] = .ok storing.program ∧
    storing.program = [object .mov .BX, object .store .AX] ∧ ((2 : Nat) : Int) ≤ storing.userSize ∧
    storing.cfg.firstAtLoad = .skip ∧ bench.program = [] := by decide

theorem witness_AutoRunEnds : (fun s : State => s.runState = .loaded ∧ s.running = true ∧
    s.program.length - s.currentIndex + 1 ≤ 2) { storing with running := true } := by decide

theorem witness_RunStartsAutoRun : storing.runState = .loaded ∨ storing.runState = .stepping := by decide

theorem witness_SetProgramStartWritesPcAlone :
    inSW bench.cfg.width 2147483647 = true ∧ inSW bench.cfg.width 2147483648 = false := by decide

theorem witness_ReadOnlyCommandsOnlyShow : bench.snapshot[19]?.isSome = true := by decide

theorem witness_PowerOnSatisfiesInv : Config.wf { Config.default with width := 16, maxSize := 100 } = true := by decide

theorem witness_StepKeepsInv : storing.Inv ∧ (see (fun t => t.AX) (step storing)).isSome = true :=
  ⟨storing_inv, by decide⟩

theorem witness_CommandsKeepInv : storing.Inv := storing_inv

end Sys2Proof.Tests
end

section
/-! Proofs: the two regions of the memory (10_state.md R39 and R41). -/

namespace Sys2Proof.Machine

variable (s : State) (a : Int)

theorem State.region_eq : s.region a =
    if 0 ≤ a ∧ a < s.size then (if a ≤ s.osEnd then some .os else some .user) else none := by
  simp only [State.region, State.inMemory_iff]

theorem State.region_eq_none_iff : s.region a = none ↔ a < 0 ∨ (s.size : Int) ≤ a := by
  rw [State.region_eq]
  split_ifs with hin <;> simp <;> omega

theorem State.region_eq_os_iff : s.region a = some .os ↔ 0 ≤ a ∧ a < s.size ∧ a ≤ s.osEnd := by
  rw [State.region_eq]
  split_ifs with hin hos <;> simp <;> omega

theorem State.region_eq_user_iff : s.region a = some .user ↔ 0 ≤ a ∧ a < s.size ∧ s.osEnd < a := by
  rw [State.region_eq]
  split_ifs with hin hos <;> simp <;> omega

/-- The User region begins at the address after `osEnd` (10_state.md R39). -/
theorem State.osEnd_add_one : s.osEnd + 1 = s.userStart := Int.sub_add_cancel _ _

end Sys2Proof.Machine

namespace Sys2Proof.Proofs

open Sys2Proof.Machine

/-- Settles O39: the bound of each region that the model does not test follows from `osEnd + 1 = userStart`, with
`userStart ≤ size` for the OS region and `0 ≤ userStart` for the User region. -/
theorem regionsPartitionTheMemory : Obligations.RegionsPartitionTheMemory := by
  intro s a hsize
  have adjacent := s.osEnd_add_one
  have start : s.userStart = (s.osSize : Int) := rfl
  refine ⟨?_, ?_, s.region_eq_none_iff a⟩
  · rw [State.region_eq_os_iff]; omega
  · rw [State.region_eq_user_iff]; omega

end Sys2Proof.Proofs
end

section
/-! Proofs: what no instruction can change in the OS region (20_memory.md R62). -/

namespace Sys2Proof.Machine

/-- Every word and every label of the OS region of `s` reads the same in `t`. -/
def SameOsRegion (s t : State) : Prop :=
  ∀ a : Int, 0 ≤ a → a ≤ s.osEnd → t.memRead a = s.memRead a ∧ t.labelAt a = s.labelAt a

variable {s t u : State}

theorem SameOsRegion.refl (s : State) : SameOsRegion s s := fun _ _ _ => ⟨rfl, rfl⟩

theorem SameMemory.sameOsRegion (h : SameMemory s t) : SameOsRegion s t := fun a _ _ => ⟨h.words a, h.labels a⟩

theorem SameOsRegion.trans (hst : SameOsRegion s t) (ho : t.osSize = s.osSize) (htu : SameOsRegion t u) :
    SameOsRegion s u := by
  intro a ha hos
  obtain ⟨hw, hl⟩ := hst a ha hos
  obtain ⟨hw', hl'⟩ := htu a ha (by rwa [State.osEnd, ho])
  exact ⟨hw'.trans hw, hl'.trans hl⟩

/-- No address of the OS region is one a protected write may change. -/
theorem State.ne_of_osEnd_of_inUser {a x : Int} (ha : a ≤ s.osEnd) (hx : s.inUser x = true) : a ≠ x := by
  rw [State.inUser_iff] at hx
  rw [State.osEnd] at ha
  omega

/-- A word put into the User region is seen nowhere in the OS region. -/
theorem sameOsRegion_of_put {x v : Int} (hx : s.inUser x = true) (hm : t.mem = Cells.put 0 s.mem x.toNat v)
    (hl : t.labels = s.labels) (hs : t.size = s.size) : SameOsRegion s t := by
  intro a _ hos
  have outside : a ≠ x := State.ne_of_osEnd_of_inUser hos hx
  exact ⟨by rw [memRead_put (State.inMemory_of_inUser hx) hm hs, if_neg outside], labelAt_congr hl hs a⟩

/-- The Engine's effect of any instruction keeps the OS region, whether it succeeds or fails. -/
theorem engineOf_sameOsRegion (i : Instr) (s : State) : SameOsRegion s (engineOf i s).state := by
  cases he : engineOf i s with
  | ok t =>
    have keeps := engineOf_ok_keeps he
    obtain hm | ⟨r, _, hu, hm⟩ := engineOf_mem he
    · exact (sameMemory_of_eq hm keeps.labels keeps.size keeps.osSize).sameOsRegion
    · exact sameOsRegion_of_put hu hm keeps.labels keeps.size
  | fail e t =>
    obtain ⟨_, _, _, rfl, _⟩ := engineOf_fail he
    exact .refl t

/-- Everything the port can do with a code: the fault of an illegal code, or the effect of the instruction it is; the IR
write comes first (40_execute.md R132 to R135). -/
theorem executeCode_cases (code : BitVec 8) (s : State) :
    (∃ e, decode code = .error e ∧ executeCode code s = .fail (decodeFault e) (s.latchIR code)) ∨
    (∃ op r, decode code = .ok (op, r) ∧ executeCode code s = engineOf (instrOf none op r) (s.latchIR code)) := by
  cases hd : decode code with
  | error e => exact .inl ⟨e, rfl, by rw [executeCode, hd]⟩
  | ok p => exact .inr ⟨p.1, p.2, rfl, by rw [executeCode, hd, ← engineApply_eq]⟩

theorem latchIR_sameMemory (s : State) (code : BitVec 8) : SameMemory s (s.latchIR code) :=
  sameMemory_of_eq rfl rfl rfl rfl

theorem executeCode_sameOsRegion (code : BitVec 8) (s : State) : SameOsRegion s (executeCode code s).state := by
  have latched := (latchIR_sameMemory s code).sameOsRegion
  obtain ⟨e, _, h⟩ | ⟨op, r, _, h⟩ := executeCode_cases code s <;> rw [h]
  · exact latched
  · exact latched.trans rfl (engineOf_sameOsRegion _ _)

theorem execute_sameOsRegion (bits : List Bool) (s : State) : SameOsRegion s (execute bits s).state := by
  unfold execute
  split
  · exact executeCode_sameOsRegion _ s
  · exact .refl s

theorem faulted_sameMemory (s : State) (code : BitVec 8) (e : ExecFault) : SameMemory s (s.faulted code e) :=
  sameMemory_of_eq rfl rfl rfl rfl

/-- The end of a successful instruction reaches no word and no label. -/
theorem finish_sameMemory (s : State) : SameMemory s s.advancePC.advanceIndex := by
  obtain ⟨p, k, r, b, h, _⟩ := finish_eq s
  rw [h]
  exact sameMemory_of_eq rfl rfl rfl rfl

theorem step_sameOsRegion (h : step s = .next t) : SameOsRegion s t := by
  obtain ⟨_, ⟨_, rfl⟩ | ⟨ins, _, ⟨e, _, rfl⟩ | ⟨i, _, _, ⟨u, hu, rfl⟩ | ⟨r, _, _, rfl⟩⟩⟩⟩ := step_cases h
  · exact (sameMemory_of_eq rfl rfl rfl rfl).sameOsRegion
  · exact (faulted_sameMemory s _ _).sameOsRegion
  · have fetched : SameMemory s (s.latchIR ins.code).enterStepping := sameMemory_of_eq rfl rfl rfl rfl
    have effect := engineOf_sameOsRegion i (s.latchIR ins.code).enterStepping
    rw [hu] at effect
    exact (fetched.sameOsRegion.trans rfl effect).trans (engineOf_ok_keeps hu).osSize
      (finish_sameMemory u).sameOsRegion
  · exact (faulted_sameMemory s _ _).sameOsRegion

theorem memWrite_isSome_iff (s : State) (a v : Int) (lbl : Option Text) :
    (s.memWrite a v lbl).isSome = true ↔ (s.osSize : Int) ≤ a ∧ a < s.size := by
  rw [← State.inUser_iff]
  obtain ⟨hu, h⟩ | ⟨hu, h⟩ := memWrite_cases s a v lbl <;> simp [h, hu]

theorem memWrite_eq_none {a : Int} (v : Int) (lbl : Option Text) (h : a < s.osSize ∨ (s.size : Int) ≤ a) :
    s.memWrite a v lbl = none := by
  rw [← Option.not_isSome_iff_eq_none, memWrite_isSome_iff]
  omega

end Sys2Proof.Machine

namespace Sys2Proof.Proofs

open Sys2Proof.Machine

/-- Settles O32: the one Engine effect that reaches memory puts its word into the User region, and a step and the port
add to an effect only writes outside memory. -/
theorem instructionsNeverChangeTheOsRegion : Obligations.InstructionsNeverChangeTheOsRegion :=
  ⟨fun _ _ => step_sameOsRegion, execute_sameOsRegion,
    fun s a v lbl => ⟨memWrite_isSome_iff s a v lbl, memWrite_eq_none v lbl⟩⟩

end Sys2Proof.Proofs
end

section
/-! Proofs: the host's CLEAR_USER (20_memory.md R64). -/

namespace Sys2Proof.Machine

variable (s : State)

theorem clearUser_sameRegisters : SameRegisters s s.clearUser := ⟨fun r => s.reg_clearUser r, rfl, rfl, rfl⟩

theorem clearUser_sameSequencer : SameSequencer s s.clearUser := ⟨rfl, rfl, rfl, rfl, rfl, rfl⟩

theorem clearUser_reads_user {s : State} {a : Int} (hlo : (s.osSize : Int) ≤ a) (hhi : a < s.size) :
    s.clearUser.memRead a = 0 ∧ s.clearUser.labelAt a = [] := by
  rw [memRead_clearUser, labelAt_clearUser, if_pos ⟨hlo, hhi⟩, if_pos ⟨hlo, hhi⟩]
  exact ⟨rfl, rfl⟩

theorem clearUser_reads_os {s : State} {a : Int} (h : a < s.osSize) :
    s.clearUser.memRead a = s.memRead a ∧ s.clearUser.labelAt a = s.labelAt a := by
  have below : ¬ ((s.osSize : Int) ≤ a ∧ a < s.size) := by omega
  rw [memRead_clearUser, labelAt_clearUser, if_neg below, if_neg below]
  exact ⟨rfl, rfl⟩

end Sys2Proof.Machine

namespace Sys2Proof.Proofs

open Sys2Proof.Machine

/-- Settles O36: the state CLEAR_USER answers reads the default exactly in the User region, and every other field is
that of the state before. -/
theorem clearUserClearsExactlyTheUserRegion : Obligations.ClearUserClearsExactlyTheUserRegion := fun s =>
  ⟨s.clearUser, rfl, fun _ => clearUser_reads_user, fun _ _ => clearUser_reads_os, clearUser_sameRegisters s,
    clearUser_sameSequencer s, s.clearUser_size, s.clearUser_osSize⟩

end Sys2Proof.Proofs
end

section
/-! Proofs: the port's length check, its IR write and its unknown operations (40_execute.md R131, R132, R134). -/

namespace Sys2Proof

theorem bitsValue_concat (bits : List Bool) (b : Bool) :
    bitsValue (bits ++ [b]) = 2 * bitsValue bits + if b then 1 else 0 :=
  List.foldl_concat ..

theorem bitsValue_lt_two_pow_length (bits : List Bool) : bitsValue bits < 2 ^ bits.length := by
  induction bits using List.reverseRecOn with
  | nil => exact Nat.one_pos
  | append_singleton bits b ih =>
    rw [bitsValue_concat, List.length_append, List.length_singleton, Nat.pow_succ]
    split <;> omega

/-- Reading eight bits as a code loses nothing: their value is below `2^8`. -/
theorem toNat_ofNat_bitsValue {bits : List Bool} (h : bits.length = 8) :
    (BitVec.ofNat 8 (bitsValue bits)).toNat = bitsValue bits := by
  rw [BitVec.toNat_ofNat, Nat.mod_eq_of_lt (h ▸ bitsValue_lt_two_pow_length bits)]

theorem opField_toNat (code : BitVec 8) : (opField code).toNat = code.toNat / 16 := by
  have bound := code.isLt
  rw [opField, BitVec.extractLsb'_toNat, Nat.shiftRight_eq_div_pow]
  omega

theorem opOf_eq_none_iff : ∀ n : BitVec 4, opOf n = none ↔ n.toNat = 0 ∨ 5 < n.toNat := by decide

/-- An operation nibble outside the table is reported whatever the register nibble (92_eei_decisions.md D8). -/
theorem decode_unknown_operation {code : BitVec 8} (h : code.toNat / 16 = 0 ∨ 5 < code.toNat / 16) :
    decode code = .error .badOpcode := by
  rw [← opField_toNat, ← opOf_eq_none_iff] at h
  rw [decode, h]

end Sys2Proof

namespace Sys2Proof.Machine

theorem execute_of_length_ne {bits : List Bool} (s : State) (h : bits.length ≠ 8) :
    execute bits s = .fail .E_LEN s := if_neg h

theorem execute_of_length_eq {bits : List Bool} (s : State) (h : bits.length = 8) :
    execute bits s = executeCode (BitVec.ofNat 8 (bitsValue bits)) s := if_pos h

theorem executeCode_of_decode_error {code : BitVec 8} {e : DecodeError} (s : State) (h : decode code = .error e) :
    executeCode code s = .fail (decodeFault e) (s.latchIR code) := by
  rw [executeCode, h]

/-- The IR write stays in place on every path: the fault of an illegal code, and the effect of a legal one. -/
theorem executeCode_IR (code : BitVec 8) (s : State) : (executeCode code s).state.IR = code := by
  obtain ⟨e, _, h⟩ | ⟨op, r, _, h⟩ := executeCode_cases code s <;> rw [h]
  · exact s.latchIR_IR code
  · exact (engineOf_keeps _ _).ir

end Sys2Proof.Machine

namespace Sys2Proof.Proofs

open Sys2Proof.Machine

/-- Settles O9: the length check comes first and writes nothing. -/
theorem wrongLengthCodesChangeNothing : Obligations.WrongLengthCodesChangeNothing :=
  fun _ s => execute_of_length_ne s

/-- Settles O10: IR holds the code made of the eight bits, whose value those bits are. -/
theorem everyEightBitCodeIsLatched : Obligations.EveryEightBitCodeIsLatched := by
  intro bits s h
  rw [execute_of_length_eq s h, executeCode_IR, toNat_ofNat_bitsValue h]
  rfl

/-- Settles O11: the code decodes to the error for an operation, and the fault it raises comes after the IR write alone. -/
theorem unknownOperationFaults : Obligations.UnknownOperationFaults := by
  intro code s h
  rw [execute_codeBits, executeCode_of_decode_error s (decode_unknown_operation h)]
  rfl

end Sys2Proof.Proofs
end

section
/-! Proofs: LOAD and MOV, at a step and at the port (41_register_ops.md R150, R151). -/

namespace Sys2Proof

theorem opField_append (a n : BitVec 4) : opField (a ++ n) = a := BitVec.extractLsb'_append_eq_left

theorem regField_append (a n : BitVec 4) : regField (a ++ n) = n := BitVec.extractLsb'_append_eq_right

theorem opOf_opNibble (op : Operation) : opOf (opNibble op) = some op := by cases op <;> rfl

theorem regOf_eq_none_iff : ∀ n : BitVec 4, regOf n = none ↔ n.toNat = 0 ∨ 4 < n.toNat := by decide

theorem decode_unknown_register {code : BitVec 8} {op : Operation} (hop : opOf (opField code) = some op)
    (hreg : regOf (regField code) = none) : decode code = .error .badRegister := by
  rw [decode, hop, hreg]

end Sys2Proof

namespace Sys2Proof.Machine

/-- A register nibble outside the table fails whatever the operation, and IR alone is written (40_execute.md R135). -/
theorem executeCode_unknown_register (op : Operation) {n : BitVec 4} (s : State) (h : n.toNat = 0 ∨ 4 < n.toNat) :
    executeCode (opNibble op ++ n) s = .fail .E_REG { s with IR := opNibble op ++ n } := by
  have bad : decode (opNibble op ++ n) = .error .badRegister :=
    decode_unknown_register (by rw [opField_append, opOf_opNibble])
      (by rw [regField_append, regOf_eq_none_iff]; exact h)
  exact executeCode_of_decode_error s bad

theorem Advanced.of_latchIR {s t : State} {code : BitVec 8} (h : Advanced (s.latchIR code) t) : Advanced s t :=
  ⟨h.pc, h.index, h.atEnd, h.before, h.lastFault, h.program, h.cfg⟩

/-- Every instruction but STORE succeeds at a step: it leaves the registers of its effect and reaches no memory. -/
theorem exec_of_ne_store {i : Instr} (hi : ∀ r, i ≠ .store r) (s : State) : ∃ t, exec i s = .next t ∧
    (∀ q, t.reg q = (engineOf i (s.latchIR i.code)).state.reg q) ∧
    t.AC = (engineOf i (s.latchIR i.code)).state.AC ∧ t.IR = i.code ∧ SameMemory s t ∧ Advanced s t := by
  rw [exec_eq]
  cases he : engineOf i (s.latchIR i.code) with
  | fail e u =>
    obtain ⟨r, hr, _⟩ := engineOf_fail he
    exact absurd hr (hi r)
  | ok u =>
    have keeps := engineOf_ok_keeps he
    obtain hm | ⟨r, hr, _⟩ := engineOf_mem he
    · obtain ⟨t, ht, advanced, hreg, hac, hir, hmem, hlabels, hsize, hos, _⟩ := finish_of_keeps keeps
      exact ⟨t, congrArg _ ht, hreg, hac, hir.trans keeps.ir, sameMemory_of_eq (hmem.trans hm) hlabels hsize hos,
        advanced.of_latchIR⟩
    · exact absurd hr (hi r)

end Sys2Proof.Machine

namespace Sys2Proof.Proofs

open Sys2Proof.Machine

/-- Settles O14: the Engine's effect of LOAD writes AC, which is no general register, and nothing of memory. -/
theorem loadCopiesRegisterToAc : Obligations.LoadCopiesRegisterToAc := by
  refine ⟨fun r s => ?_, fun _ => executeCode_unknown_register .load⟩
  obtain ⟨t, ht, hreg, hac, hir, hmem, advanced⟩ := exec_of_ne_store (i := .load r) nofun s
  refine ⟨t, ht, ?_, fun q => ?_, hir, hmem, advanced⟩
  · rw [hac]
    exact s.reg_latchIR r (encodeOp .load r)
  · rw [hreg q]
    exact s.reg_latchIR q (encodeOp .load r)

/-- Settles O15: the Engine's effect of MOV is a write of one register, the same at a step and at the port. -/
theorem movCopiesAcToRegister : Obligations.MovCopiesAcToRegister := by
  refine ⟨fun r s => ?_, fun _ => executeCode_unknown_register .mov, executeCode_encodeOp .mov⟩
  obtain ⟨t, ht, hreg, hac, hir, hmem, advanced⟩ := exec_of_ne_store (i := .mov r) nofun s
  refine ⟨t, ht, ?_, fun q hq => ?_, ?_, hir, hmem, advanced⟩
  · rw [hreg r]
    exact State.reg_setReg_same _ r s.AC
  · rw [hreg q]
    exact (State.reg_setReg_other _ r q s.AC hq).trans (s.reg_latchIR q (encodeOp .mov r))
  · rw [hac]
    exact State.setReg_AC _ r s.AC

end Sys2Proof.Proofs
end

section
/-! Proofs: STORE, its write of a word and a register and its fault (42_store.md R170). -/

namespace Sys2Proof.Machine

/-- What a successful STORE of `r` at `a` leaves in memory and registers. -/
structure Stored (r : Reg) (a : Int) (s t : State) : Prop where
  word : t.memRead a = s.AC
  frame : SameMemoryExceptWord a s t
  reg : t.reg r = s.AC
  others : ∀ q, q ≠ r → t.reg q = s.reg q
  ac : t.AC = s.AC

theorem storeAddress_latchIR (r : Reg) (s : State) (code : BitVec 8) :
    storeAddress r (s.latchIR code) = storeAddress r s :=
  congrArg (s.userStart + ·) (s.reg_latchIR r code)

theorem memRead_put_same {s t : State} {a v : Int} (ha : s.inMemory a = true)
    (hm : t.mem = Cells.put 0 s.mem a.toNat v) (hs : t.size = s.size) : t.memRead a = v :=
  (memRead_put ha hm hs a).trans (if_pos rfl)

theorem sameMemoryExceptWord_of_put {s t : State} {a v : Int} (ha : s.inMemory a = true)
    (hm : t.mem = Cells.put 0 s.mem a.toNat v) (hl : t.labels = s.labels) (hs : t.size = s.size)
    (ho : t.osSize = s.osSize) : SameMemoryExceptWord a s t :=
  ⟨fun b hb => by rw [memRead_put ha hm hs, if_neg hb], labelAt_congr hl hs, hs, ho⟩

/-- The effect of a STORE stays in place between an IR write before it and a change outside memory, the general
registers and AC after it. -/
theorem Stored.of_latchIR_of_sameMemory {r : Reg} {a : Int} {s u t : State} {code : BitVec 8}
    (h : Stored r a (s.latchIR code) u) (hm : SameMemory u t) (hreg : ∀ q, t.reg q = u.reg q) (hac : t.AC = u.AC) :
    Stored r a s t where
  word := (hm.words a).trans h.word
  frame := ⟨fun b hb => (hm.words b).trans (h.frame.words b hb), fun b => (hm.labels b).trans (h.frame.labels b),
    hm.size.trans h.frame.size, hm.osSize.trans h.frame.osSize⟩
  reg := (hreg r).trans h.reg
  others q hq := ((hreg q).trans (h.others q hq)).trans (s.reg_latchIR q code)
  ac := hac.trans h.ac

theorem engineStore_of_inUser {r : Reg} {s : State} (h : s.inUser (storeAddress r s) = true) :
    ∃ u, engineStore r s = .ok u ∧ Stored r (storeAddress r s) s u := by
  obtain ⟨_, he⟩ | ⟨hn, _⟩ := engineStore_cases r s
  · refine ⟨_, he, ?_⟩
    have inside := State.inMemory_of_inUser h
    exact {
      word := memRead_put_same inside (State.setReg_mem ..) (State.setReg_size ..)
      frame := sameMemoryExceptWord_of_put inside (State.setReg_mem ..) (State.setReg_labels ..)
        (State.setReg_size ..) (State.setReg_osSize ..)
      reg := State.reg_setReg_same ..
      others := fun q hq => (State.reg_setReg_other _ r q s.AC hq).trans (by cases q <;> rfl)
      ac := State.setReg_AC .. }
  · rw [hn] at h
    cases h

theorem engineStore_of_not_inUser {r : Reg} {s : State} (h : ¬ s.inUser (storeAddress r s) = true) :
    engineStore r s = .fail .E_STORE_PROT s := by
  obtain ⟨hu, _⟩ | ⟨_, he⟩ := engineStore_cases r s
  · exact absurd hu h
  · exact he

/-- STORE into the User region at a step. -/
theorem exec_store_of_inUser {r : Reg} {s : State} (h : s.inUser (storeAddress r s) = true) :
    ∃ t, exec (.store r) s = .next t ∧ Stored r (storeAddress r s) s t ∧ t.IR = encodeOp .store r ∧ Advanced s t := by
  rw [← storeAddress_latchIR r s (encodeOp .store r)] at h ⊢
  obtain ⟨u, hu, stored⟩ := engineStore_of_inUser (s := s.latchIR (encodeOp .store r)) h
  have keeps := engineOf_ok_keeps (i := .store r) hu
  obtain ⟨t, rfl, advanced, hreg, hac, hir, _⟩ := finish_of_keeps keeps
  refine ⟨_, ?_, stored.of_latchIR_of_sameMemory (finish_sameMemory u) hreg hac, hir.trans keeps.ir,
    advanced.of_latchIR⟩
  exact (exec_eq (.store r) s).trans (congrArg retire hu)

/-- STORE outside the User region at a step. -/
theorem exec_store_of_not_inUser {r : Reg} {s : State} (h : ¬ s.inUser (storeAddress r s) = true) :
    exec (.store r) s = .next (s.faulted (encodeOp .store r) .E_STORE_PROT) := by
  rw [← storeAddress_latchIR r s (encodeOp .store r)] at h
  have fails := engineStore_of_not_inUser (s := s.latchIR (encodeOp .store r)) h
  exact (exec_eq (.store r) s).trans (congrArg retire fails)

end Sys2Proof.Machine

namespace Sys2Proof.Proofs

open Sys2Proof.Machine

/-- Settles O19: STORE writes or faults as its address is in the User region or not, and neither the IR write before its
effect nor the end of the step after it reaches memory, a general register or AC. -/
theorem storeWritesUserWordOrFaults : Obligations.StoreWritesUserWordOrFaults := by
  refine ⟨fun r s a haddr _ hlo hhi => ?_, fun r s hout => ?_, fun _ => executeCode_unknown_register .store⟩
  · subst haddr
    obtain ⟨t, ht, stored, hir, advanced⟩ := exec_store_of_inUser ((s.inUser_iff _).mpr ⟨hlo, hhi⟩)
    exact ⟨t, ht, stored.word, stored.frame, stored.reg, stored.others, stored.ac, hir, advanced⟩
  · have outside : ¬ s.inUser (storeAddress r s) = true := by
      rw [State.inUser_iff, storeAddress, State.userStart]
      omega
    exact exec_store_of_not_inUser outside

end Sys2Proof.Proofs
end

section
/-! Proofs: the fault entry of a step, its one cause and its whole effect (60_exceptions.md R183, R184). -/

namespace Sys2Proof

theorem decodeIssue_of_decode_error {b : Issue} {e : DecodeError} (h : decode b.code = .error e) :
    decodeIssue b = .error e := by
  rw [decodeIssue, h]

theorem decodeIssue_of_decode_ok {b : Issue} {op : Operation} {r : Reg} (h : decode b.code = .ok (op, r)) :
    decodeIssue b = .ok (instrOf b.imm op r) := by
  rw [decodeIssue, h]

/-- The side-band plays no part in whether a code is legal. -/
theorem decode_error_of_decodeIssue {b : Issue} {e : DecodeError} (h : decodeIssue b = .error e) :
    decode b.code = .error e := by
  cases hd : decode b.code with
  | error d =>
    rw [decodeIssue_of_decode_error hd] at h
    cases h
    rfl
  | ok p =>
    rw [decodeIssue_of_decode_ok hd] at h
    cases h

end Sys2Proof

namespace Sys2Proof.Machine

variable {s t u : State} {ins : InstrObject} {code : BitVec 8} {reason : ExecFault}

/-! ## The port -/

theorem executeCode_store_of_not_inUser {r : Reg} (h : ¬ s.inUser (storeAddress r s) = true) :
    executeCode (encodeOp .store r) s = .fail .E_STORE_PROT (s.latchIR (encodeOp .store r)) := by
  rw [executeCode_encodeOp]
  rw [← storeAddress_latchIR r s (encodeOp .store r)] at h
  exact engineStore_of_not_inUser (s := s.latchIR (encodeOp .store r)) h

/-- Everything a failure of the port can come from: an illegal code, or a STORE outside the User region. -/
theorem executeCode_fail (h : executeCode code s = .fail reason u) :
    (∃ e, decode code = .error e ∧ reason = decodeFault e) ∨
    (∃ r, code = encodeOp .store r ∧ reason = .E_STORE_PROT ∧ ¬ s.inUser (storeAddress r s) = true) := by
  obtain ⟨e, hd, he⟩ | ⟨op, r, hd, he⟩ := executeCode_cases code s <;> rw [he] at h
  · cases h
    exact .inl ⟨e, hd, rfl⟩
  · obtain ⟨q, hi, hreason, _, hout⟩ := engineOf_fail h
    rw [storeAddress_latchIR] at hout
    have hcode : code = encodeOp .store q := by
      rw [← encodeOp_of_decode hd, ← instrOf_code none, hi]
      rfl
    exact .inr ⟨q, hcode, hreason, ne_true_of_eq_false hout⟩

/-! ## The step -/

/-- A step runs the instruction its issue decodes to, in the state with IR written and the run state STEPPING. -/
theorem step_of_decodeIssue_ok {i : Instr} (hr : s.runnable = true) (hp : s.program[s.currentIndex]? = some ins)
    (hd : decodeIssue (issueOf s.cfg ins) = .ok i) : step s = exec i (s.latchIR ins.code).enterStepping := by
  simp only [step, fetch, hr, hp, hd, if_true]

theorem step_of_decodeIssue_error {e : DecodeError} (hr : s.runnable = true)
    (hp : s.program[s.currentIndex]? = some ins) (hd : decodeIssue (issueOf s.cfg ins) = .error e) :
    step s = .next (s.faulted ins.code (decodeFault e)) := by
  simp only [step, fetch, hr, hp, hd, if_true]
  rfl

/-- The command STEP reports the reason that the fault entry records. -/
theorem command_step_of_faulted (h : step s = .next (s.faulted code reason)) :
    command .step s = (.fail (.exec reason), s.faulted code reason) := by
  simp only [command, hostStep, h]
  rfl

/-- The IR write and the run state of a fetch play no part in where STORE writes. -/
theorem inUser_storeAddress_fetched (s : State) (code : BitVec 8) (r : Reg) :
    (s.latchIR code).enterStepping.inUser (storeAddress r (s.latchIR code).enterStepping) =
      s.inUser (storeAddress r s) := by
  cases r <;> rfl

/-- A code the port fails on makes the step fault, for the same reason and with IR that code. A MOV-with-immediate object
needs no exception: a side-band cannot make an illegal code or a STORE succeed. -/
theorem step_of_executeCode_fail (hr : s.runnable = true) (hp : s.program[s.currentIndex]? = some ins)
    (h : executeCode ins.code s = .fail reason u) : step s = .next (s.faulted ins.code reason) := by
  obtain ⟨e, hd, rfl⟩ | ⟨r, hcode, rfl, hout⟩ := executeCode_fail h
  · exact step_of_decodeIssue_error hr hp (decodeIssue_of_decode_error hd)
  · have legal : decode (issueOf s.cfg ins).code = .ok (.store, r) := by
      rw [← decode_encodeOp, ← hcode]
      rfl
    rw [← inUser_storeAddress_fetched s ins.code, hcode] at hout
    rw [step_of_decodeIssue_ok hr hp (decodeIssue_of_decode_ok legal), hcode]
    exact exec_store_of_not_inUser hout

/-- The end of a successful instruction completes the run or leaves the run state. -/
theorem finish_runState (s : State) :
    s.advancePC.advanceIndex.runState = .completed ∨ s.advancePC.advanceIndex.runState = s.runState := by
  obtain ⟨p, k, r, b, h, _, _, hend, hbefore⟩ := finish_eq s
  rw [h]
  by_cases he : s.currentIndex + 1 = s.program.length
  · exact .inl (hend he).1
  · exact .inr (hbefore he).1

/-- A step whose instruction succeeds leaves STEPPING or COMPLETED. -/
theorem finish_ne_halted {i : Instr} (h : engineOf i (s.latchIR code).enterStepping = .ok u) :
    u.advancePC.advanceIndex.runState ≠ .halted := by
  have stepping : u.runState = .stepping := (engineOf_ok_keeps h).seq.runState
  obtain hc | hk := finish_runState u
  · rw [hc]
    nofun
  · rw [hk, stepping]
    nofun

/-- A step halts in one way only: its code fails at the port, with IR alone written, and the fault entry is taken. -/
theorem step_halted (h : step s = .next t) (hhalt : t.runState = .halted) :
    ∃ (ins : InstrObject) (reason : ExecFault), s.program[s.currentIndex]? = some ins ∧
      executeCode ins.code s = .fail reason (s.latchIR ins.code) ∧ t = s.faulted ins.code reason := by
  obtain ⟨_, ⟨_, rfl⟩ | ⟨ins, hp, ⟨e, hd, rfl⟩ | ⟨i, _, hcode, ⟨u, hu, rfl⟩ | ⟨r, rfl, hout, rfl⟩⟩⟩⟩ := step_cases h
  · cases hhalt
  · exact ⟨ins, decodeFault e, hp, executeCode_of_decode_error s (decode_error_of_decodeIssue hd), rfl⟩
  · exact absurd hhalt (finish_ne_halted hu)
  · refine ⟨ins, .E_STORE_PROT, hp, ?_, rfl⟩
    rw [← hcode]
    exact executeCode_store_of_not_inUser (ne_true_of_eq_false hout)

end Sys2Proof.Machine

namespace Sys2Proof.Proofs

open Sys2Proof.Machine

/-- Settles O25: the port fails on an illegal code or a STORE outside the User region alone, and the step takes either in the
fault entry; every other way through a step ends COMPLETED or STEPPING. -/
theorem faultEntryIsPrecise : Obligations.FaultEntryIsPrecise := by
  refine ⟨fun s ins reason u hrun hp _ hfail => ?_, fun s t hstep hhalt => ?_⟩
  · rw [execute_codeBits] at hfail
    have faults := step_of_executeCode_fail (decide_eq_true hrun) hp hfail
    exact ⟨faults, command_step_of_faulted faults⟩
  · obtain ⟨ins, reason, hp, hfail, rfl⟩ := step_halted hstep hhalt
    exact ⟨ins, reason, hp, (execute_codeBits ins.code s).trans hfail, rfl, command_step_of_faulted hstep⟩

end Sys2Proof.Proofs
end

section
/-! Proofs: the frame of the Engine reset (70_reset_and_hazards.md R221). -/

namespace Sys2Proof.Machine

variable (s : State)

theorem engineReset_sameMemory : SameMemory s s.engineReset :=
  sameMemory_of_eq s.engineReset_mem s.engineReset_labels s.engineReset_size s.engineReset_osSize

theorem engineReset_sameSequencer : SameSequencer s s.engineReset :=
  ⟨s.engineReset_runState, s.engineReset_program, s.engineReset_currentIndex, s.engineReset_running,
    s.engineReset_lastFault, s.engineReset_cfg⟩

end Sys2Proof.Machine

namespace Sys2Proof.Proofs

open Sys2Proof.Machine

/-- Settles O40: every register of the Engine reads its reset value, PC the start of the User region, and neither the memory
nor the sequencer is written. -/
theorem engineResetClearsOnlyTheRegisters : Obligations.EngineResetClearsOnlyTheRegisters := fun s =>
  ⟨s.reg_engineReset, s.engineReset_AC, s.engineReset_IR, s.engineReset_PC, engineReset_sameMemory s,
    engineReset_sameSequencer s⟩

end Sys2Proof.Proofs
end

section
/-! Proofs: auto-run at a step boundary where `running` is off (60_exceptions.md R208, 70_reset_and_hazards.md R244). -/

namespace Sys2Proof.Machine

/-- A boundary that reads `running` off begins no step and ends auto-run. -/
theorem autoRun_of_not_running {s : State} (h : s.running = false) (k : Nat) : autoRun k s = s := by
  cases k with
  | zero => rfl
  | succ k => rw [autoRun, h, if_neg Bool.false_ne_true]

theorem command_stop (s : State) : command .stop s = (.ok, { s with running := false }) := rfl

end Sys2Proof.Machine

namespace Sys2Proof.Proofs

open Sys2Proof.Machine

/-- Settles O47: STOP leaves `running` off, where auto-run begins no step. -/
theorem stopEndsAutoRun : Obligations.StopEndsAutoRun := by
  intro s k
  rw [command_stop]
  exact ⟨autoRun_of_not_running rfl k, rfl⟩

end Sys2Proof.Proofs
end

section
/-! Proofs: the decoder and the encoder, each the other's inverse (30_encoding.md R96 to R98). -/

namespace Sys2Proof

/-- An instruction is the one its own operation, register and side-band stand for. -/
theorem instrOf_sideband (i : Instr) : instrOf i.sideband i.operation i.register = i := by
  cases i <;> rfl

theorem decodeIssue_encode (i : Instr) : decodeIssue (encode i) = .ok i := by
  rw [decodeIssue_of_decode_ok (b := encode i) (Machine.decode_encodeOp i.operation i.register)]
  exact congrArg Except.ok (instrOf_sideband i)

/-- What has a left inverse is injective. -/
theorem encode_injective {i j : Instr} (h : encode i = encode j) : i = j := by
  have same := congrArg decodeIssue h
  rw [decodeIssue_encode, decodeIssue_encode] at same
  exact Except.ok.inj same

theorem regField_toNat (code : BitVec 8) : (regField code).toNat = code.toNat % 16 := by
  rw [regField, BitVec.extractLsb'_toNat, Nat.shiftRight_zero]

/-- Every way through the decoder: the operation nibble first, then the register nibble (92_eei_decisions.md D8). -/
theorem decode_cases (code : BitVec 8) :
    (opOf (opField code) = none ∧ decode code = .error .badOpcode) ∨
    (∃ op, opOf (opField code) = some op ∧ regOf (regField code) = none ∧ decode code = .error .badRegister) ∨
    (∃ op r, opOf (opField code) = some op ∧ regOf (regField code) = some r ∧ decode code = .ok (op, r)) := by
  unfold decode
  cases opOf (opField code) with
  | none => exact .inl ⟨rfl, rfl⟩
  | some op =>
    cases regOf (regField code) with
    | none => exact .inr (.inl ⟨op, rfl, rfl, rfl⟩)
    | some r => exact .inr (.inr ⟨op, r, rfl, rfl, rfl⟩)

theorem decode_eq_badOpcode_iff (code : BitVec 8) : decode code = .error .badOpcode ↔ opOf (opField code) = none := by
  obtain ⟨hop, h⟩ | ⟨op, hop, _, h⟩ | ⟨op, r, hop, _, h⟩ := decode_cases code <;> simp [h, hop]

theorem decode_eq_badRegister_iff (code : BitVec 8) :
    decode code = .error .badRegister ↔ opOf (opField code) ≠ none ∧ regOf (regField code) = none := by
  obtain ⟨hop, h⟩ | ⟨op, hop, hreg, h⟩ | ⟨op, r, hop, hreg, h⟩ := decode_cases code <;> simp [*]

theorem opOf_opField_eq_none_iff (code : BitVec 8) :
    opOf (opField code) = none ↔ code.toNat / 16 = 0 ∨ 5 < code.toNat / 16 := by
  rw [opOf_eq_none_iff, opField_toNat]

theorem regOf_regField_eq_none_iff (code : BitVec 8) :
    regOf (regField code) = none ↔ code.toNat % 16 = 0 ∨ 4 < code.toNat % 16 := by
  rw [regOf_eq_none_iff, regField_toNat]

/-- A legal operation nibble with a register nibble outside the table (30_encoding.md R98). -/
theorem decode_eq_badRegister_iff_toNat (code : BitVec 8) : decode code = .error .badRegister ↔
    (1 ≤ code.toNat / 16 ∧ code.toNat / 16 ≤ 5) ∧ (code.toNat % 16 = 0 ∨ 4 < code.toNat % 16) := by
  rw [decode_eq_badRegister_iff, Ne, opOf_opField_eq_none_iff, regOf_regField_eq_none_iff]
  omega

end Sys2Proof

namespace Sys2Proof.Proofs

open Sys2Proof.Machine

/-- Settles O3: the code names the operation and the register, the side-band tells MOV from MOV-with-immediate, so
decoding loses nothing; and a parsed object carries the code of its own pair. -/
theorem decodeAndEncodeAgree : Obligations.DecodeAndEncodeAgree :=
  ⟨decodeIssue_encode, fun _ _ => code_of_decodeIssue, decode_encodeOp, fun _ _ => encode_injective,
    fun _ _ ins h => ⟨decode_encodeOp ins.op ins.reg, (parse_parsed h).1.code⟩⟩

/-- Settles O1, by running the decoder on the seven codes. -/
theorem writtenCodesDecode : Obligations.WrittenCodesDecode := ⟨rfl, rfl, rfl, rfl, rfl, rfl, rfl⟩

/-- Settles O2: each nibble table misses exactly the values the error names. -/
theorem illegalCodesAreExactlyTheReservedNibbles : Obligations.IllegalCodesAreExactlyTheReservedNibbles := fun code =>
  ⟨(decode_eq_badOpcode_iff code).trans (opOf_opField_eq_none_iff code), decode_eq_badRegister_iff_toNat code⟩

end Sys2Proof.Proofs
end

section
/-! Proofs: the IMM8 word (30_encoding.md R100). -/

namespace Sys2Proof.Machine

/-- The sign bit stands above seven bits of magnitude. -/
theorem encodeImmediate_toNat {c : Config} (v : Int) (h : c.immMax ≤ 127) :
    (encodeImmediate c v).toNat = (if v < 0 then 128 else 0) + min v.natAbs c.immMax := by
  have magnitude : (BitVec.ofNat 7 (min v.natAbs c.immMax)).toNat = min v.natAbs c.immMax := by
    rw [BitVec.toNat_ofNat]
    omega
  have fits := (BitVec.ofNat 7 (min v.natAbs c.immMax)).isLt
  rw [encodeImmediate, BitVec.toNat_append, ← Nat.shiftLeft_add_eq_or_of_lt fits, magnitude]
  split <;> rfl

end Sys2Proof.Machine

namespace Sys2Proof.Proofs

open Sys2Proof.Machine

/-- Settles O4: negative zero would be a negative value whose clamped magnitude is 0, and a negative value has magnitude at
least 1. -/
theorem imm8IsSignedMagnitude : Obligations.Imm8IsSignedMagnitude := by
  intro c v hmax
  refine ⟨encodeImmediate_toNat v hmax, fun hpos negativeZero => ?_⟩
  have value := encodeImmediate_toNat v hmax
  rw [negativeZero] at value
  change 128 = _ at value
  split at value <;> omega

end Sys2Proof.Proofs
end

section
/-! Proofs: the frame of the Engine's port, its faults and the command EXECUTE (40_execute.md R135 to R137, R144, R145). -/

namespace Sys2Proof.Machine

variable {s t : State}

/-- Everything the port can do: the length check, or the run of a code. -/
theorem execute_cases (bits : List Bool) (s : State) :
    execute bits s = .fail .E_LEN s ∨ ∃ code, execute bits s = executeCode code s := by
  by_cases h : bits.length = 8
  · exact .inr ⟨_, execute_of_length_eq s h⟩
  · exact .inl (execute_of_length_ne s h)

theorem executeCode_keeps (code : BitVec 8) (s : State) : EngineKeeps (s.latchIR code) (executeCode code s).state := by
  obtain ⟨e, _, h⟩ | ⟨op, r, _, h⟩ := executeCode_cases code s <;> rw [h]
  · exact ⟨rfl, rfl, rfl, rfl, rfl, rfl, rfl, rfl, rfl, rfl, rfl⟩
  · exact engineOf_keeps _ _

theorem SameSequencer.refl (s : State) : SameSequencer s s := ⟨rfl, rfl, rfl, rfl, rfl, rfl⟩

theorem SameSequencer.of_latchIR {code : BitVec 8} (h : SameSequencer (s.latchIR code) t) : SameSequencer s t :=
  ⟨h.runState, h.program, h.currentIndex, h.running, h.lastFault, h.cfg⟩

/-- What the port leaves alone, whatever it answers. -/
structure PortFrame (s t : State) : Prop where
  seq : SameSequencer s t
  pc : t.PC = s.PC
  size : t.size = s.size
  osSize : t.osSize = s.osSize

theorem PortFrame.refl (s : State) : PortFrame s s := ⟨.refl s, rfl, rfl, rfl⟩

theorem executeCode_portFrame (code : BitVec 8) (s : State) : PortFrame s (executeCode code s).state := by
  have keeps := executeCode_keeps code s
  exact ⟨keeps.seq.of_latchIR, keeps.pc, keeps.size, keeps.osSize⟩

theorem execute_portFrame (bits : List Bool) (s : State) : PortFrame s (execute bits s).state := by
  obtain h | ⟨code, h⟩ := execute_cases bits s <;> rw [h]
  · exact .refl s
  · exact executeCode_portFrame code s

/-! ## The command EXECUTE -/

/-- The characters that spell a bit string (40_execute.md R144). -/
def textOfBits (bits : List Bool) : Text := bits.map (fun b => if b then '1' else '0')

theorem bitsOfText_textOfBits (bits : List Bool) : bitsOfText (textOfBits bits) = some bits := by
  induction bits with
  | nil => rfl
  | cons b bits ih =>
    change bitsOfText ((if b then '1' else '0') :: textOfBits bits) = _
    cases b <;> simp [bitsOfText, ih]

theorem bitsOfText_eq_none {code : Text} (h : ∃ x ∈ code, x ≠ '0' ∧ x ≠ '1') : bitsOfText code = none := by
  obtain ⟨x, hx, h0, h1⟩ := h
  induction code with
  | nil => cases hx
  | cons c rest ih =>
    obtain rfl | hrest := List.mem_cons.mp hx
    · rw [bitsOfText, if_neg h0, if_neg h1]
    · simp [bitsOfText, ih hrest]

/-- The command reports what the port answers. -/
def portReply : EngineResult → Reply × State
  | .ok t => (.ok, t)
  | .fail e t => (.fail (.exec e), t)

theorem command_execute_of_bits {code : Text} {bits : List Bool} (h : bitsOfText code = some bits) (s : State) :
    command (.execute code) s = portReply (execute bits s) := by
  simp only [command, hostExecute, h]
  cases execute bits s <;> rfl

theorem command_execute_of_not_bits {code : Text} (h : bitsOfText code = none) (s : State) :
    command (.execute code) s = (.fail .badCharacter, s) := by
  simp only [command, hostExecute, h]

theorem portReply_state (r : EngineResult) : (portReply r).2 = r.state := by cases r <;> rfl

/-- Everything EXECUTE can do to the state: nothing, or what the port does. -/
theorem command_execute_state (code : Text) (s : State) :
    (command (.execute code) s).2 = s ∨ ∃ bits, (command (.execute code) s).2 = (execute bits s).state := by
  cases h : bitsOfText code with
  | none => exact .inl (congrArg Prod.snd (command_execute_of_not_bits h s))
  | some bits => exact .inr ⟨bits, by rw [command_execute_of_bits h, portReply_state]⟩

theorem command_execute_portFrame (code : Text) (s : State) : PortFrame s (command (.execute code) s).2 := by
  obtain h | ⟨bits, h⟩ := command_execute_state code s <;> rw [h]
  · exact .refl s
  · exact execute_portFrame bits s

end Sys2Proof.Machine

namespace Sys2Proof.Proofs

open Sys2Proof.Machine

/-- Settles O12: the code decodes to the error for a register, and the fault it raises comes after the IR write alone. -/
theorem unknownRegisterFaults : Obligations.UnknownRegisterFaults := by
  intro code s hlo hhi hreg
  have bad := (decode_eq_badRegister_iff_toNat code).mpr ⟨⟨hlo, hhi⟩, hreg⟩
  exact (execute_codeBits code s).trans (executeCode_of_decode_error s bad)

/-- Settles O13: neither the IR write nor an Engine effect touches PC or the sequencer, and the command adds nothing. -/
theorem executePortLeavesPcAndSequencer : Obligations.ExecutePortLeavesPcAndSequencer := by
  refine ⟨fun bits s => (execute_portFrame bits s).pc, fun code s => ?_⟩
  have frame := command_execute_portFrame code s
  exact ⟨frame.seq, frame.pc, frame.size, frame.osSize⟩

/-- Settles O54: reading the characters of a bit string gives it back, and the command is then the port with its answer as
the reply. -/
theorem executeCommandIsThePort : Obligations.ExecuteCommandIsThePort := by
  refine fun s => ⟨fun bits t h => ?_, fun bits e t h => ?_, fun code hbad => ?_⟩
  · exact (command_execute_of_bits (bitsOfText_textOfBits bits) s).trans (congrArg portReply h)
  · exact (command_execute_of_bits (bitsOfText_textOfBits bits) s).trans (congrArg portReply h)
  · exact command_execute_of_not_bits (bitsOfText_eq_none hbad) s

end Sys2Proof.Proofs
end

section
/-! Proofs: what each legal code does at the port (40_execute.md R137, 41_register_ops.md R150 to R160, 42_store.md R170). -/

namespace Sys2Proof.Machine

variable {s : State} {n : Int}

theorem toSW_of_inSW (h : inSW s.cfg.width n = true) : s.toSW n = (s, n) := if_pos h

theorem toSW_of_any (h : inSW s.cfg.width n = false) (hm : s.cfg.ovfMode = .any) : s.toSW n = s.draw := by
  rw [State.toSW, if_neg (ne_true_of_eq_false h), hm]

theorem toSW_of_wrap (h : inSW s.cfg.width n = false) (hm : s.cfg.ovfMode = .wrap) :
    s.toSW n = (s, wrapSW s.cfg.width n) := by
  rw [State.toSW, if_neg (ne_true_of_eq_false h), hm]

theorem setACnarrowed_of_inSW (h : inSW s.cfg.width n = true) : s.setACnarrowed n = s.setAC n := by
  rw [State.setACnarrowed, toSW_of_inSW h]

theorem setACnarrowed_of_any (h : inSW s.cfg.width n = false) (hm : s.cfg.ovfMode = .any) :
    s.setACnarrowed n = s.draw.1.setAC s.draw.2 := by
  rw [State.setACnarrowed, toSW_of_any h hm]

theorem setACnarrowed_of_wrap (h : inSW s.cfg.width n = false) (hm : s.cfg.ovfMode = .wrap) :
    s.setACnarrowed n = s.setAC (wrapSW s.cfg.width n) := by
  rw [State.setACnarrowed, toSW_of_wrap h hm]

theorem engineAdd_latchIR (r : Reg) (s : State) (code : BitVec 8) :
    engineAdd r (s.latchIR code) = .ok ((s.latchIR code).setACnarrowed (s.AC + s.reg r)) := by
  rw [engineAdd, s.reg_latchIR, s.latchIR_AC]

theorem engineSub_latchIR (r : Reg) (s : State) (code : BitVec 8) :
    engineSub r (s.latchIR code) = .ok ((s.latchIR code).setACnarrowed (s.AC - s.reg r)) := by
  rw [engineSub, s.reg_latchIR, s.latchIR_AC]

/-- The port on the codes of ADD and SUB: the IR write, then the narrowed result in AC. -/
theorem executeCode_arithmetic {nibble : BitVec 4} {r : Reg}
    (h : (nibble = 0b0101#4 ∧ n = s.AC + s.reg r) ∨ (nibble = 0b0100#4 ∧ n = s.AC - s.reg r)) :
    executeCode (nibble ++ regNibble r) s = .ok ((s.latchIR (nibble ++ regNibble r)).setACnarrowed n) := by
  obtain ⟨rfl, rfl⟩ | ⟨rfl, rfl⟩ := h
  · exact (executeCode_encodeOp .add r s).trans (engineAdd_latchIR r s _)
  · exact (executeCode_encodeOp .sub r s).trans (engineSub_latchIR r s _)

theorem executeCode_load (r : Reg) (s : State) :
    executeCode (encodeOp .load r) s = .ok { s with IR := encodeOp .load r, AC := s.reg r } := by
  rw [executeCode_encodeOp, engineApply, engineLoad, s.reg_latchIR]
  rfl

/-- STORE into the User region at the port. -/
theorem executeCode_store_of_inUser {r : Reg} (h : s.inUser (storeAddress r s) = true) :
    ∃ t, executeCode (encodeOp .store r) s = .ok t ∧ Stored r (storeAddress r s) s t := by
  rw [executeCode_encodeOp]
  rw [← storeAddress_latchIR r s (encodeOp .store r)] at h ⊢
  obtain ⟨t, ht, stored⟩ := engineStore_of_inUser (s := s.latchIR (encodeOp .store r)) h
  exact ⟨t, ht, stored.of_latchIR_of_sameMemory ⟨fun _ => rfl, fun _ => rfl, rfl, rfl⟩ (fun _ => rfl) rfl⟩

theorem inUser_storeAddress_iff (r : Reg) (s : State) :
    s.inUser (storeAddress r s) = true ↔ 0 ≤ s.reg r ∧ s.reg r < s.userSize := by
  rw [State.inUser_iff, storeAddress, State.userStart, State.userSize]
  omega

end Sys2Proof.Machine

namespace Sys2Proof.Proofs

open Sys2Proof.Machine

/-- Settles O53: the port is the IR write and the Engine effect of the code's operation, and each effect is known whole. -/
theorem executePortRunsLegalCodes : Obligations.ExecutePortRunsLegalCodes := by
  intro r s
  simp only [execute_codeBits]
  refine ⟨executeCode_load r s, executeCode_encodeOp .mov r s, fun nibble n h => ?_, fun a haddr _ hlo hhi => ?_,
    fun hout => ?_⟩
  · rw [executeCode_arithmetic h]
    refine ⟨fun hin => ?_, fun hout hmode => ?_, fun hout hmode => ?_⟩
    · exact congrArg EngineResult.ok (setACnarrowed_of_inSW hin)
    · exact congrArg EngineResult.ok (setACnarrowed_of_any hout hmode)
    · exact congrArg EngineResult.ok (setACnarrowed_of_wrap hout hmode)
  · subst haddr
    obtain ⟨t, ht, stored⟩ := executeCode_store_of_inUser ((s.inUser_iff _).mpr ⟨hlo, hhi⟩)
    have ir := executeCode_IR (encodeOp .store r) s
    have frame := executeCode_portFrame (encodeOp .store r) s
    rw [ht] at ir frame
    exact ⟨t, ht, stored.word, stored.frame, stored.reg, stored.others, stored.ac, ir, frame.pc, frame.seq⟩
  · refine executeCode_store_of_not_inUser ?_
    rw [inUser_storeAddress_iff, State.userSize]
    omega

end Sys2Proof.Proofs
end

section
/-! Proofs: MOV-with-immediate, ADD and SUB at a step (41_register_ops.md R152 to R160), and the answer of every instruction
(60_exceptions.md section 1). -/

namespace Sys2Proof.Machine

/-- What ADD and SUB leave in AC of a result `n`, by the overflow policy (41_register_ops.md R160). -/
structure NarrowedInAc (n : Int) (s t : State) : Prop where
  inside : inSW s.cfg.width n = true → t.AC = n
  drawn : inSW s.cfg.width n = false → s.cfg.ovfMode = .any →
    t.AC = (Config.freeWord s.cfg.width s.drawCount).toInt ∧ s.drawCount < t.drawCount
  wrapped : inSW s.cfg.width n = false → s.cfg.ovfMode = .wrap →
    t.AC = (n + halfRange s.cfg.width) % (2 * halfRange s.cfg.width) - halfRange s.cfg.width
  inRange : inSW s.cfg.width t.AC = true

/-- AC and the draw count of `toSW` are all that `NarrowedInAc` asks for; later draws change neither clause. -/
theorem narrowedInAc_of_toSW {n : Int} {s t : State} (hac : t.AC = (s.toSW n).2)
    (hdraw : (s.toSW n).1.drawCount ≤ t.drawCount) : NarrowedInAc n s t where
  inside h := by rw [hac, toSW_of_inSW h]
  drawn h hm := by
    rw [toSW_of_any h hm] at hac hdraw
    exact ⟨hac, hdraw⟩
  wrapped h hm := by
    rw [hac, toSW_of_wrap h hm]
    rfl
  inRange := hac ▸ toSW_inSW s n

theorem NarrowedInAc.of_latchIR {n : Int} {s t : State} {code : BitVec 8} (h : NarrowedInAc n (s.latchIR code) t) :
    NarrowedInAc n s t :=
  ⟨h.inside, h.drawn, h.wrapped, h.inRange⟩

/-- The whole step of an instruction whose Engine effect is a narrowed write of AC. -/
theorem exec_of_setACnarrowed {i : Instr} {n : Int} {s : State}
    (h : engineOf i (s.latchIR i.code) = .ok ((s.latchIR i.code).setACnarrowed n)) :
    ∃ t, exec i s = .next t ∧ NarrowedInAc n s t ∧ (∀ q, t.reg q = s.reg q) ∧ t.IR = i.code ∧ SameMemory s t ∧
      Advanced s t := by
  have keeps := engineOf_ok_keeps h
  obtain ⟨t, ht, advanced, hreg, hac, hir, hmem, hlabels, hsize, hos, hdraw, _⟩ := finish_of_keeps keeps
  obtain ⟨k, hk⟩ := setACnarrowed_eq (s.latchIR i.code) n
  refine ⟨t, ?_, (narrowedInAc_of_toSW hac hdraw).of_latchIR, fun q => ?_, hir.trans keeps.ir, ?_, advanced.of_latchIR⟩
  · rw [exec_eq, h]
    exact congrArg _ ht
  · rw [hreg, hk]
    cases q <;> rfl
  · refine sameMemory_of_eq (hmem.trans ?_) hlabels hsize hos
    rw [hk]
    rfl

/-- Every instruction answers a next state: the end of a step after its effect, or the fault entry of a STORE. -/
theorem exec_cases (i : Instr) (s : State) :
    (∃ u, engineOf i (s.latchIR i.code) = .ok u ∧ exec i s = .next u.advancePC.advanceIndex) ∨
    (∃ e, exec i s = .next (s.faulted i.code e)) := by
  rw [exec_eq]
  cases he : engineOf i (s.latchIR i.code) with
  | ok u => exact .inl ⟨u, rfl, rfl⟩
  | fail e u =>
    obtain ⟨_, _, _, rfl, _⟩ := engineOf_fail he
    exact .inr ⟨e, rfl⟩

end Sys2Proof.Machine

namespace Sys2Proof.Proofs

open Sys2Proof.Machine

/-- Settles O16: the Engine's effect is a write of one register with the immediate as it came. -/
theorem movImmWritesTheFullImmediate : Obligations.MovImmWritesTheFullImmediate := by
  intro r v s
  obtain ⟨t, ht, hreg, hac, hir, hmem, advanced⟩ := exec_of_ne_store (i := .movImm r v) nofun s
  refine ⟨t, ht, ?_, fun q hq => ?_, ?_, hir, hmem, advanced⟩
  · rw [hreg r]
    exact State.reg_setReg_same _ r v
  · rw [hreg q]
    exact (State.reg_setReg_other _ r q v hq).trans (s.reg_latchIR q (encodeOp .mov r))
  · rw [hac]
    exact State.setReg_AC _ r v

/-- Settles O17: ADD's effect is the sum narrowed into AC. -/
theorem addPutsSumInAc : Obligations.AddPutsSumInAc := by
  intro r s
  obtain ⟨t, ht, narrowed, hreg, hir, hmem, advanced⟩ :=
    exec_of_setACnarrowed (i := .add r) (engineAdd_latchIR r s (encodeOp .add r))
  exact ⟨t, ht, narrowed.inside, narrowed.drawn, narrowed.wrapped, narrowed.inRange, hreg, hir, hmem, advanced⟩

/-- Settles O18: SUB's effect is the difference, AC minus the register, narrowed into AC. -/
theorem subPutsDifferenceInAc : Obligations.SubPutsDifferenceInAc := by
  intro r s
  obtain ⟨t, ht, narrowed, hreg, hir, hmem, advanced⟩ :=
    exec_of_setACnarrowed (i := .sub r) (engineSub_latchIR r s (encodeOp .sub r))
  exact ⟨t, ht, narrowed.inside, narrowed.drawn, narrowed.wrapped, narrowed.inRange, hreg, hir, hmem, advanced⟩

/-- Settles O20: the end of a successful step and the fault entry both answer a next state, and PC is advanced to a W-bit
value or left. -/
theorem everyInstructionAnswersANextState : Obligations.EveryInstructionAnswersANextState := by
  intro i s
  obtain ⟨u, hu, h⟩ | ⟨e, h⟩ := exec_cases i s
  · have keeps := engineOf_ok_keeps hu
    obtain ⟨t, ht, advanced, _, _, hir, _, _, hsize, hos, _, hpc⟩ := finish_of_keeps keeps
    rw [ht] at h
    exact ⟨t, h, advanced.program, advanced.cfg, hsize, hos, hir.trans keeps.ir,
      fun _ => by rw [advanced.cfg]; exact hpc⟩
  · exact ⟨_, h, rfl, rfl, rfl, rfl, rfl, id⟩

end Sys2Proof.Proofs
end

section
/-! Proofs: what a step and the command STEP answer in each run state (60_exceptions.md R206, R207, R209). -/

namespace Sys2Proof.Machine

variable {s t : State} {ins : InstrObject}

theorem State.runnable_iff (s : State) : s.runnable = true ↔ s.runState = .loaded ∨ s.runState = .stepping :=
  decide_eq_true_iff

theorem State.runnable_eq_false_iff (s : State) :
    s.runnable = false ↔ s.runState = .idle ∨ s.runState = .halted ∨ s.runState = .completed := by
  rw [State.runnable, decide_eq_false_iff_not]
  cases s.runState <;> decide

theorem step_of_not_runnable (h : s.runnable = false) : step s = .refused .notRunnable := by
  simp only [step, fetch, h, if_neg Bool.false_ne_true]

theorem step_of_end (hr : s.runnable = true) (h : s.program.length ≤ s.currentIndex) : step s = .next s.complete := by
  simp only [step, fetch, hr, List.getElem?_eq_none h, if_true]

/-- In LOADED and STEPPING a step always answers a next state. -/
theorem step_of_runnable (hr : s.runnable = true) : ∃ t, step s = .next t := by
  cases hp : s.program[s.currentIndex]? with
  | none => exact ⟨_, step_of_end hr (List.getElem?_eq_none_iff.mp hp)⟩
  | some ins =>
    cases hd : decodeIssue (issueOf s.cfg ins) with
    | error e => exact ⟨_, step_of_decodeIssue_error hr hp hd⟩
    | ok i =>
      rw [step_of_decodeIssue_ok hr hp hd]
      obtain ⟨u, _, h⟩ | ⟨e, h⟩ := exec_cases i (s.latchIR ins.code).enterStepping <;> exact ⟨_, h⟩

/-- The command STEP refuses exactly what the step refuses, and leaves the state. -/
theorem command_step_of_not_runnable (h : s.runnable = false) : command .step s = (.fail .notRunnable, s) := by
  simp only [command, hostStep, step_of_not_runnable h]

theorem command_run_of_not_runnable (h : s.runnable = false) : command .run s = (.fail .notRunnable, s) := by
  simp only [command, hostRun, h, if_neg Bool.false_ne_true]

theorem command_run_of_runnable (h : s.runnable = true) : command .run s = (.ok, { s with running := true }) := by
  simp only [command, hostRun, h, if_true]

/-- The command STEP leaves the state the step answers. -/
theorem command_step_of_next (h : step s = .next t) : (command .step s).2 = t := by
  simp only [command, hostStep, h]
  split <;> rfl

/-- The command STEP answers ok where the step does not halt. -/
theorem command_step_of_next_of_ne_halted (h : step s = .next t) (ht : t.runState ≠ .halted) :
    command .step s = (.ok, t) := by
  simp only [command, hostStep, h]
  split
  · next hh _ => exact absurd hh ht
  · rfl

end Sys2Proof.Machine

namespace Sys2Proof.Proofs

open Sys2Proof.Machine

/-- Settles O21: fetch hands the bundle of the object at the cursor to the decoder. -/
theorem stepRunsTheIssuedInstruction : Obligations.StepRunsTheIssuedInstruction :=
  fun _ _ _ hrun hp hd => step_of_decodeIssue_ok (decide_eq_true hrun) hp hd

/-- Settles O22: the decoder sees the code alone, so an illegal one faults whatever side-band the object carries. -/
theorem stepTakesTheFaultOfAnIllegalCode : Obligations.StepTakesTheFaultOfAnIllegalCode := by
  intro s ins hrun hp
  refine ⟨fun hop => ?_, fun hlo hhi hreg => ?_⟩
  · have bad : decode (issueOf s.cfg ins).code = .error .badOpcode := decode_unknown_operation hop
    exact step_of_decodeIssue_error (decide_eq_true hrun) hp (decodeIssue_of_decode_error bad)
  · have bad : decode (issueOf s.cfg ins).code = .error .badRegister :=
      (decode_eq_badRegister_iff_toNat ins.code).mpr ⟨⟨hlo, hhi⟩, hreg⟩
    exact step_of_decodeIssue_error (decide_eq_true hrun) hp (decodeIssue_of_decode_error bad)

/-- Settles O23: at the end of the program fetch finds no object and completes the run. -/
theorem stepAtTheEndCompletes : Obligations.StepAtTheEndCompletes := by
  intro s hrun hend
  have completes := step_of_end (decide_eq_true hrun) hend
  exact ⟨completes, command_step_of_next_of_ne_halted completes nofun⟩

/-- Settles O24: the three run states are those that are not runnable. -/
theorem stepAndRunRefusedWhenNotRunnable : Obligations.StepAndRunRefusedWhenNotRunnable := by
  intro s hrun
  have blocked := s.runnable_eq_false_iff.mpr hrun
  exact ⟨step_of_not_runnable blocked, command_step_of_not_runnable blocked, command_run_of_not_runnable blocked⟩

end Sys2Proof.Proofs
end

section
/-! Proofs: what a step moves: the cursor, PC and one word (40_execute.md R140 to R143, 60_exceptions.md R180). -/

namespace Sys2Proof

theorem Config.wf_iff (c : Config) : c.wf = true ↔ 9 ≤ c.width ∧ (c.maxSize : Int) < halfRange c.width ∧ c.immMax ≤ 127 ∧
    c.resizeSound = true ∧ c.powerOnSound = true := by
  simp only [Config.wf, Bool.and_eq_true, decide_eq_true_eq, and_assoc]

end Sys2Proof

namespace Sys2Proof.Machine

variable {s t : State}

theorem Advanced.of_fetched {code : BitVec 8} (h : Advanced (s.latchIR code).enterStepping t) : Advanced s.enterStepping t :=
  ⟨h.pc, h.index, h.atEnd, h.before, h.lastFault, h.program, h.cfg⟩

/-- The three ends of a step, as the sequencer sees them: the program is exhausted, a fault is taken, or PC and the cursor
advance. -/
theorem step_ends (h : step s = .next t) : s.runnable = true ∧
    ((s.program.length ≤ s.currentIndex ∧ t = s.complete) ∨
     (s.currentIndex < s.program.length ∧ ((∃ code e, t = s.faulted code e) ∨ Advanced s.enterStepping t))) := by
  obtain ⟨hr, ⟨hp, rfl⟩ | ⟨ins, hp, hrest⟩⟩ := step_cases h
  · exact ⟨hr, .inl ⟨List.getElem?_eq_none_iff.mp hp, rfl⟩⟩
  · refine ⟨hr, .inr ⟨(List.getElem?_eq_some_iff.mp hp).1, ?_⟩⟩
    obtain ⟨e, _, rfl⟩ | ⟨i, _, _, ⟨u, hu, rfl⟩ | ⟨r, _, _, rfl⟩⟩ := hrest
    · exact .inl ⟨_, _, rfl⟩
    · obtain ⟨_, rfl, advanced, _⟩ := finish_of_keeps (engineOf_ok_keeps hu)
      exact .inr advanced.of_fetched
    · exact .inl ⟨_, _, rfl⟩

/-- An advance leaves STEPPING or COMPLETED. -/
theorem Advanced.runState (h : Advanced s.enterStepping t) : t.runState = .stepping ∨ t.runState = .completed := by
  by_cases hend : s.currentIndex + 1 = s.program.length
  · exact .inr (h.atEnd hend).1
  · exact .inl (h.before hend).1

theorem Advanced.runState_ne_halted (h : Advanced s.enterStepping t) : t.runState ≠ .halted := by
  obtain hs | hc := h.runState
  · simp [hs]
  · simp [hc]

/-- Every object of a program in the invariant has a legal code. -/
theorem InstrObject.Parsed.decode {c : Config} {ins : InstrObject} (h : InstrObject.Parsed c ins) :
    Sys2Proof.decode ins.code = .ok (ins.op, ins.reg) := by
  rw [h.code, decode_encodeOp]

/-- In a state of the invariant a fault of the port is that of a STORE outside the User region. -/
theorem State.Inv.executeCode_fail {ins : InstrObject} {reason : ExecFault} {u : State} (h : s.Inv)
    (hins : ins ∈ s.program) (hfail : executeCode ins.code s = .fail reason u) :
    ∃ r, ins.code = encodeOp .store r ∧ reason = .E_STORE_PROT ∧ ¬ s.inUser (storeAddress r s) = true := by
  obtain ⟨e, hd, _⟩ | hstore := Machine.executeCode_fail hfail
  · rw [(h.parsed ins hins).decode] at hd
    cases hd
  · exact hstore

/-- Every address of the memory, and the one after its last, is a word (92_eei_decisions.md D22). -/
theorem inSW_of_le_maxSize {c : Config} {n : Int} (h : c.wf = true) (h0 : 0 ≤ n) (hn : n ≤ c.maxSize) :
    inSW c.width n = true := by
  obtain ⟨_, hmax, _⟩ := c.wf_iff.mp h
  rw [inSW_iff]
  omega

/-- How a step that runs an instruction leaves memory: as it was, or with one word written by a STORE. -/
theorem step_memory (h : step s = .next t) : SameMemory s t ∨
    ∃ r, t.IR = encodeOp .store r ∧ s.inUser (storeAddress r s) = true ∧
      t.mem = Cells.put 0 s.mem (storeAddress r s).toNat s.AC ∧ t.labels = s.labels ∧ t.size = s.size ∧
      t.osSize = s.osSize := by
  obtain ⟨_, ⟨_, rfl⟩ | ⟨ins, _, ⟨e, _, rfl⟩ | ⟨i, _, hcode, ⟨u, hu, rfl⟩ | ⟨r, _, _, rfl⟩⟩⟩⟩ := step_cases h
  · exact .inl (sameMemory_of_eq rfl rfl rfl rfl)
  · exact .inl (faulted_sameMemory s _ _)
  · have keeps := engineOf_ok_keeps hu
    obtain ⟨t, rfl, _, _, _, hir, hmem, hlabels, hsize, hos, _⟩ := finish_of_keeps keeps
    obtain hm | ⟨r, rfl, huser, hm⟩ := engineOf_mem hu
    · exact .inl (sameMemory_of_eq (hmem.trans hm) hlabels hsize hos)
    · rw [inUser_storeAddress_fetched] at huser
      refine .inr ⟨r, (hir.trans keeps.ir).trans hcode.symm, huser, (hmem.trans hm).trans ?_, hlabels, hsize, hos⟩
      cases r <;> rfl
  · exact .inl (faulted_sameMemory s _ _)

theorem step_size (h : step s = .next t) : t.size = s.size ∧ t.osSize = s.osSize := by
  obtain same | ⟨_, _, _, _, _, hsize, hos⟩ := step_memory h
  · exact ⟨same.size, same.osSize⟩
  · exact ⟨hsize, hos⟩

end Sys2Proof.Machine

namespace Sys2Proof.Proofs

open Sys2Proof.Machine

/-- Settles O26: with an instruction left the step advances or takes a fault, and the run state tells which. -/
theorem noStepTransfersControl : Obligations.NoStepTransfersControl := by
  intro s t hstep hleft
  obtain ⟨_, ⟨hend, _⟩ | ⟨_, ⟨code, e, rfl⟩ | advanced⟩⟩ := step_ends hstep
  · omega
  · exact ⟨rfl, fun hne => absurd rfl hne, fun _ => ⟨rfl, rfl⟩⟩
  · exact ⟨advanced.program, fun _ => ⟨advanced.index, advanced.pc⟩, fun hh => absurd hh advanced.runState_ne_halted⟩

/-- Settles O27: a step halts on a failure of the port alone, and a parsed object's code fails there only as a STORE. -/
theorem reachableStepsFaultOnlyByStore : Obligations.ReachableStepsFaultOnlyByStore := by
  intro s t hinv hstep hhalt
  obtain ⟨ins, reason, hp, hfail, rfl⟩ := step_halted hstep hhalt
  obtain ⟨r, hcode, rfl, hout⟩ := hinv.executeCode_fail (List.mem_of_getElem? hp) hfail
  refine ⟨r, by rw [hcode]; rfl, ?_⟩
  rw [inUser_storeAddress_iff] at hout
  omega

/-- Settles O28: the one write of a step into memory is STORE's, of one word and no label. -/
theorem onlyStoreChangesAWord : Obligations.OnlyStoreChangesAWord := by
  intro s t hstep
  obtain same | ⟨r, hir, huser, hmem, hlabels, hsize, _⟩ := step_memory hstep
  · exact ⟨fun a hne => absurd (same.words a) hne, same.labels⟩
  · have word := memRead_put (State.inMemory_of_inUser huser) hmem hsize
    refine ⟨fun a hne => ?_, labelAt_congr hlabels hsize⟩
    by_cases ha : a = storeAddress r s
    · exact ⟨r, hir, ha, by rw [word, if_pos ha]⟩
    · rw [word, if_neg ha] at hne
      exact absurd rfl hne

/-- Settles O29: PC and the cursor move together, and where the program fits, `PC + 1` is an address of the memory or the
one after its last and so a W-bit value. -/
theorem stepKeepsPcAtTheCursor : Obligations.StepKeepsPcAtTheCursor := by
  intro s t hinv hfit htrack hstep
  obtain ⟨_, hos⟩ := step_size hstep
  obtain ⟨_, ⟨_, rfl⟩ | ⟨hleft, ⟨code, e, rfl⟩ | advanced⟩⟩ := step_ends hstep
  · exact htrack
  · exact htrack
  · simp only [State.PcTracksCursor, State.userSize, State.userStart] at hfit htrack ⊢
    have bound := hinv.sizeBound
    have inRange : inSW s.cfg.width (s.PC + 1) = true := inSW_of_le_maxSize hinv.params (by omega) (by omega)
    have pc : t.PC = s.PC + 1 := advanced.pc inRange
    have index : t.currentIndex = s.currentIndex + 1 := advanced.index
    omega

end Sys2Proof.Proofs
end

section
/-! Proofs: a step on any other words and labels (20_memory.md R74). -/

namespace Sys2Proof.Machine

/-- The state with other words and labels. -/
def State.withMemory (s : State) (m : Cells Int) (l : Cells Text) : State := { s with mem := m, labels := l }

variable {s t u : State} (m : Cells Int) (l : Cells Text)

@[simp] theorem State.reg_withMemory (s : State) (r : Reg) : (s.withMemory m l).reg r = s.reg r := by cases r <;> rfl

theorem State.setReg_withMemory (s : State) (r : Reg) (v : Int) :
    (s.withMemory m l).setReg r v = (s.setReg r v).withMemory m l := by
  cases r <;> rfl

theorem setACnarrowed_withMemory (s : State) (n : Int) :
    (s.withMemory m l).setACnarrowed n = (s.setACnarrowed n).withMemory m l := by
  cases h : inSW s.cfg.width n with
  | true => rw [setACnarrowed_of_inSW h, setACnarrowed_of_inSW (s := s.withMemory m l) h]; rfl
  | false =>
    cases hm : s.cfg.ovfMode with
    | any => rw [setACnarrowed_of_any h hm, setACnarrowed_of_any (s := s.withMemory m l) h hm]; rfl
    | wrap => rw [setACnarrowed_of_wrap h hm, setACnarrowed_of_wrap (s := s.withMemory m l) h hm]; rfl

theorem advancePC_of_inSW (h : inSW s.cfg.width (s.PC + 1) = true) : s.advancePC = { s with PC := s.PC + 1 } :=
  if_pos h

theorem advancePC_of_not_inSW (h : ¬ inSW s.cfg.width (s.PC + 1) = true) :
    s.advancePC = { s.draw.1 with PC := s.draw.2 } :=
  if_neg h

theorem advancePC_withMemory (s : State) : (s.withMemory m l).advancePC = s.advancePC.withMemory m l := by
  by_cases h : inSW s.cfg.width (s.PC + 1) = true
  · rw [advancePC_of_inSW h, advancePC_of_inSW (s := s.withMemory m l) h]
    rfl
  · rw [advancePC_of_not_inSW h, advancePC_of_not_inSW (s := s.withMemory m l) h]
    rfl

theorem advanceIndex_of_end (h : s.currentIndex + 1 = s.program.length) :
    s.advanceIndex = State.complete { s with currentIndex := s.currentIndex + 1 } :=
  if_pos h

theorem advanceIndex_of_not_end (h : s.currentIndex + 1 ≠ s.program.length) :
    s.advanceIndex = { s with currentIndex := s.currentIndex + 1 } :=
  if_neg h

theorem advanceIndex_withMemory (s : State) : (s.withMemory m l).advanceIndex = s.advanceIndex.withMemory m l := by
  by_cases h : s.currentIndex + 1 = s.program.length
  · rw [advanceIndex_of_end h, advanceIndex_of_end (s := s.withMemory m l) h]
    rfl
  · rw [advanceIndex_of_not_end h, advanceIndex_of_not_end (s := s.withMemory m l) h]
    rfl

theorem finish_withMemory (s : State) :
    (s.withMemory m l).advancePC.advanceIndex = s.advancePC.advanceIndex.withMemory m l := by
  rw [advancePC_withMemory, advanceIndex_withMemory]

theorem inUser_storeAddress_withMemory (s : State) (r : Reg) :
    (s.withMemory m l).inUser (storeAddress r (s.withMemory m l)) = s.inUser (storeAddress r s) := by
  cases r <;> rfl

/-- An Engine effect succeeds with any other words and labels too, and leaves the same state outside memory. -/
theorem engineOf_withMemory {i : Instr} (h : engineOf i s = .ok u) :
    ∃ m' l', engineOf i (s.withMemory m l) = .ok (u.withMemory m' l') := by
  cases i with
  | load r =>
    cases h
    exact ⟨m, l, by rw [engineOf, engineLoad, s.reg_withMemory]; rfl⟩
  | mov r =>
    cases h
    exact ⟨m, l, by rw [← s.setReg_withMemory]; rfl⟩
  | movImm r v =>
    cases h
    exact ⟨m, l, by rw [← s.setReg_withMemory]; rfl⟩
  | add r =>
    cases h
    exact ⟨m, l, by rw [← setACnarrowed_withMemory, ← s.reg_withMemory m l r]; rfl⟩
  | sub r =>
    cases h
    exact ⟨m, l, by rw [← setACnarrowed_withMemory, ← s.reg_withMemory m l r]; rfl⟩
  | store r =>
    have user := inUser_storeAddress_withMemory m l s r
    obtain ⟨hu, hs⟩ | ⟨_, hs⟩ := engineStore_cases r s <;> rw [engineOf, hs] at h <;> cases h
    obtain ⟨_, hs'⟩ | ⟨hu', _⟩ := engineStore_cases r (s.withMemory m l)
    · exact ⟨Cells.put 0 m (storeAddress r s).toNat s.AC, l, hs'.trans (by cases r <;> rfl)⟩
    · rw [user, hu] at hu'
      cases hu'

/-- A step that answers a next state answers the same one, but for words and labels, from any other words and labels. -/
theorem step_withMemory (h : step s = .next t) : ∃ m' l', step (s.withMemory m l) = .next (t.withMemory m' l') := by
  obtain ⟨hr, ⟨hp, rfl⟩ | ⟨ins, hp, ⟨e, hd, rfl⟩ | ⟨i, hd, hcode, ⟨u, hu, rfl⟩ | ⟨r, rfl, hout, rfl⟩⟩⟩⟩ := step_cases h
  · exact ⟨m, l, step_of_end (s := s.withMemory m l) hr (List.getElem?_eq_none_iff.mp hp)⟩
  · exact ⟨m, l, step_of_decodeIssue_error (s := s.withMemory m l) hr hp hd⟩
  · obtain ⟨m', l', hu'⟩ := engineOf_withMemory m l hu
    refine ⟨m', l', ?_⟩
    rw [step_of_decodeIssue_ok (s := s.withMemory m l) hr hp hd, exec_eq, hcode, ← finish_withMemory]
    exact congrArg retire hu'
  · rw [← inUser_storeAddress_withMemory m l] at hout
    have fails := executeCode_store_of_not_inUser (ne_true_of_eq_false hout)
    rw [show encodeOp .store r = ins.code from hcode] at fails
    exact ⟨m, l, step_of_executeCode_fail (s := s.withMemory m l) hr hp fails⟩

end Sys2Proof.Machine

namespace Sys2Proof.Proofs

open Sys2Proof.Machine

/-- Settles O30: fetch reads the program list, and the one thing a step asks of memory, whether STORE's address is in the
User region, is asked of `size`, `osSize` and a register. -/
theorem stepIgnoresMemoryContent : Obligations.StepIgnoresMemoryContent := by
  intro s t m l hstep
  obtain ⟨m', l', h⟩ := step_withMemory m l hstep
  exact ⟨t.withMemory m' l', h, rfl⟩

end Sys2Proof.Proofs
end

section
/-! Proofs: reads and writes of single words (20_memory.md R60 to R63, R73). -/

namespace Sys2Proof.Machine

variable {s t : State} {a v : Int}

/-- The state with the word at `a` written, and its label if one is given. -/
def State.putAt (s : State) (a v : Int) (lbl : Option Text) : State :=
  { s with mem := Cells.put 0 s.mem a.toNat v, labels := putLabel s.labels a.toNat lbl }

/-- What a write of the word and the label at `a` leaves: those two, and everything else as it was. -/
structure WroteAt (a v : Int) (lbl : Text) (s t : State) : Prop where
  word : t.memRead a = v
  label : t.labelAt a = lbl
  others : ∀ b, b ≠ a → t.memRead b = s.memRead b ∧ t.labelAt b = s.labelAt b
  registers : SameRegisters s t
  sequencer : SameSequencer s t
  size : t.size = s.size
  osSize : t.osSize = s.osSize

theorem putAt_wroteAt (v : Int) (lbl : Option Text) (ha : s.inMemory a = true) :
    WroteAt a v (lbl.getD (s.labelAt a)) s (s.putAt a v lbl) := by
  have words := memRead_put (t := s.putAt a v lbl) ha rfl rfl
  have labels := labelAt_putLabel (t := s.putAt a v lbl) ha rfl rfl
  refine ⟨?_, ?_, fun b hb => ⟨?_, ?_⟩, ⟨fun r => by cases r <;> rfl, rfl, rfl, rfl⟩, ⟨rfl, rfl, rfl, rfl, rfl, rfl⟩,
    rfl, rfl⟩
  · rw [words, if_pos rfl]
  · rw [labels, if_pos rfl]
  · rw [words, if_neg hb]
  · rw [labels, if_neg hb]

theorem memWrite_of_inUser (v : Int) (lbl : Option Text) (h : s.inUser a = true) :
    s.memWrite a v lbl = some (s.putAt a v lbl) :=
  if_pos h

theorem forceWrite_of_inMemory (v : Int) (lbl : Text) (h : s.inMemory a = true) :
    s.forceWrite a v lbl = some (s.putAt a v (some lbl)) :=
  if_pos h

theorem forceWrite_of_not_inMemory (v : Int) (lbl : Text) (h : ¬ s.inMemory a = true) : s.forceWrite a v lbl = none :=
  if_neg h

theorem command_forceWrite_of_inSW (hv : inSW s.cfg.width v = true) (a : Int) (lbl : Text) :
    command (.forceWrite a v lbl) s = orRefuse .forceRange s (s.forceWrite a v lbl) :=
  if_pos hv

/-- Writing the same content at the same address twice is writing it once. -/
theorem Cells.put_put {α : Type} [DecidableEq α] (d : α) (cells : Cells α) (a : Nat) (v : α) :
    Cells.put d (Cells.put d cells a v) a v = Cells.put d cells a v := by
  by_cases hv : v = d
  · simp [Cells.put, hv, Cells.erase, List.filter_filter]
  · simp [Cells.put, hv, Cells.erase_insert]

theorem putLabel_putLabel (labels : Cells Text) (a : Nat) (lbl : Option Text) :
    putLabel (putLabel labels a lbl) a lbl = putLabel labels a lbl := by
  cases lbl with
  | none => rfl
  | some l => exact Cells.put_put [] labels a l

theorem putAt_putAt (s : State) (a v : Int) (lbl : Option Text) : (s.putAt a v lbl).putAt a v lbl = s.putAt a v lbl := by
  simp only [State.putAt, Cells.put_put, putLabel_putLabel]

end Sys2Proof.Machine

namespace Sys2Proof.Proofs

open Sys2Proof.Machine

/-- Settles O31: in the User region the write puts one word and perhaps one label, and nothing else. -/
theorem protectedWriteReachesOnlyUserWords : Obligations.ProtectedWriteReachesOnlyUserWords := by
  intro s a v lbl
  refine ⟨fun huser => ?_, fun hout => memWrite_eq_none v lbl (by omega)⟩
  have inside := (s.inUser_iff a).mpr huser
  obtain ⟨word, label, others, registers, sequencer, hsize, hos⟩ :=
    putAt_wroteAt v lbl (State.inMemory_of_inUser inside)
  exact ⟨_, memWrite_of_inUser v lbl inside, word, label, others, registers, sequencer, hsize, hos⟩

/-- Settles O33: the second write finds the same region and puts the same content again. -/
theorem protectedWriteIsIdempotent : Obligations.ProtectedWriteIsIdempotent := by
  intro s t a v lbl hwrite
  have inside : s.inUser a = true :=
    (s.inUser_iff a).mpr ((memWrite_isSome_iff s a v lbl).mp (Option.isSome_of_eq_some hwrite))
  rw [memWrite_of_inUser v lbl inside] at hwrite
  cases hwrite
  exact (memWrite_of_inUser (s := s.putAt a v lbl) v lbl inside).trans (congrArg some (putAt_putAt s a v lbl))

/-- Settles O34: the read looks the word up inside the memory and nowhere else. -/
theorem readNeverFailsOrChangesState : Obligations.ReadNeverFailsOrChangesState := by
  intro s a
  refine ⟨fun hlo hhi => ?_, fun hout => ?_⟩
  · rw [command, memRead_eq, if_pos ⟨hlo, hhi⟩]
  · rw [command, memRead_outside s hout]

/-- Settles O35: FORCE_WRITE tests the memory bounds where the protected write tests the User region. -/
theorem forceWriteReachesEveryWord : Obligations.ForceWriteReachesEveryWord := by
  intro s a v lbl hv
  rw [command_forceWrite_of_inSW hv]
  refine ⟨fun hin => ?_, fun hout => ?_⟩
  · have inside := (s.inMemory_iff a).mpr hin
    obtain ⟨word, label, others, registers, sequencer, hsize, hos⟩ := putAt_wroteAt v (some lbl) inside
    exact ⟨_, by rw [forceWrite_of_inMemory v lbl inside]; rfl, word, label, others, registers, sequencer, hsize, hos⟩
  · rw [forceWrite_of_not_inMemory v lbl (by rw [State.inMemory_iff]; omega)]
    rfl

end Sys2Proof.Proofs
end

section
/-! Proofs: RESIZE and CONFIGURE (20_memory.md R65, R66), and the power-on state (70_reset_and_hazards.md R220). -/

namespace Sys2Proof.Machine

variable {s t : State} {n total os : Int}

/-- The state RESIZE leaves. -/
def State.resizeTo (s : State) (n : Nat) : State :=
  { s with
    mem := Cells.below s.mem (min s.size n)
    labels := Cells.below s.labels (min s.size n)
    size := n
    osSize := resizedOsSize s.cfg n }

theorem resize_of_bounds (h : (s.cfg.minSize : Int) ≤ n ∧ n ≤ s.cfg.maxSize) : s.resize n = some (s.resizeTo n.toNat) :=
  if_neg (by omega)

theorem resize_of_not_bounds (h : n < s.cfg.minSize ∨ (s.cfg.maxSize : Int) < n) : s.resize n = none :=
  if_pos h

/-- A read of words or labels cut off below both sizes, at an address below both. -/
theorem resizeTo_reads_below {m : Nat} {a : Int} (h0 : 0 ≤ a) (hs : a < s.size) (hm : a < m) :
    (s.resizeTo m).memRead a = s.memRead a ∧ (s.resizeTo m).labelAt a = s.labelAt a := by
  have inside : 0 ≤ a ∧ a < s.size := ⟨h0, hs⟩
  have inside' : 0 ≤ a ∧ a < (s.resizeTo m).size := ⟨h0, hm⟩
  have below : a.toNat < min s.size m := by omega
  rw [memRead_eq, labelAt_eq, memRead_eq, labelAt_eq, if_pos inside, if_pos inside', if_pos inside, if_pos inside']
  exact ⟨(Cells.get_below 0 s.mem _ _).trans (if_pos below), (Cells.get_below [] s.labels _ _).trans (if_pos below)⟩

/-- From the old size on every word is 0 and every label empty, inside the new memory and outside. -/
theorem resizeTo_reads_from_size {m : Nat} {a : Int} (hs : (s.size : Int) ≤ a) :
    (s.resizeTo m).memRead a = 0 ∧ (s.resizeTo m).labelAt a = [] := by
  have above : ¬ a.toNat < min s.size m := by omega
  rw [memRead_eq, labelAt_eq]
  split
  · exact ⟨(Cells.get_below 0 s.mem _ _).trans (if_neg above), (Cells.get_below [] s.labels _ _).trans (if_neg above)⟩
  · exact ⟨rfl, rfl⟩

theorem resizeTo_osSize (s : State) {n : Int} (h : 0 ≤ n) :
    ((s.resizeTo n.toNat).osSize : Int) = max (s.cfg.resizeMinOs : Int) (n / s.cfg.resizeDiv) := by
  change ((max s.cfg.resizeMinOs (n.toNat / s.cfg.resizeDiv) : Nat) : Int) = _
  push_cast
  rw [Int.toNat_of_nonneg h]

theorem resizeTo_sameRegisters (s : State) (m : Nat) : SameRegisters s (s.resizeTo m) :=
  ⟨fun r => by cases r <;> rfl, rfl, rfl, rfl⟩

theorem resizeTo_sameSequencer (s : State) (m : Nat) : SameSequencer s (s.resizeTo m) := ⟨rfl, rfl, rfl, rfl, rfl, rfl⟩

theorem configLegal_iff (c : Config) (total os : Int) : configLegal c total os = true ↔
    1 ≤ total ∧ 1 ≤ os ∧ c.minSize ≤ total ∧ c.minOs ≤ os ∧ c.minUser ≤ total - os ∧ total ≤ c.maxSize :=
  decide_eq_true_iff

/-- Well-formed parameters make the power-on configuration one that CONFIGURE accepts. -/
theorem configLegal_powerOn {c : Config} (h : c.wf = true) : configLegal c c.size0 c.osSize0 = true := by
  obtain ⟨_, _, _, _, hsound⟩ := c.wf_iff.mp h
  have sound := of_decide_eq_true hsound
  rw [configLegal_iff]
  omega

/-- The state CONFIGURE leaves: fresh memory, no program and reset registers. -/
def State.configured (s : State) (total os : Nat) : State :=
  { State.powerOn s.cfg with PC := os, size := total, osSize := os, drawCount := s.drawCount }

theorem configure_of_legal (h : configLegal s.cfg total os = true) :
    s.configure total os = some (s.configured total.toNat os.toNat) :=
  if_pos h

theorem configure_of_not_legal (h : ¬ configLegal s.cfg total os = true) : s.configure total os = none :=
  if_neg h

theorem configured_reads (s : State) (total os : Nat) (a : Int) :
    (s.configured total os).memRead a = 0 ∧ (s.configured total os).labelAt a = [] := by
  rw [memRead_eq, labelAt_eq]
  exact ⟨ite_self 0, ite_self []⟩

end Sys2Proof.Machine

namespace Sys2Proof.Proofs

open Sys2Proof.Machine

/-- Settles O37: the arrays are cut off below both sizes, so what growth adds is unlisted and reads as the default. -/
theorem resizeKeepsThePrefix : Obligations.ResizeKeepsThePrefix := by
  intro s n
  refine ⟨fun hbounds => ?_, fun hout => ?_⟩
  · have nonneg : 0 ≤ n := by omega
    have size : ((s.resizeTo n.toNat).size : Int) = n := Int.toNat_of_nonneg nonneg
    refine ⟨s.resizeTo n.toNat, by rw [command, resize_of_bounds hbounds]; rfl, size, resizeTo_osSize s nonneg,
      fun a h0 hs hn => resizeTo_reads_below h0 hs (by omega), fun a hs => resizeTo_reads_from_size hs,
      resizeTo_sameRegisters s _, resizeTo_sameSequencer s _⟩
  · rw [command, resize_of_not_bounds hout]
    rfl

/-- Settles O38: the constraints are those CONFIGURE tests, and what it leaves is the power-on state of other sizes. -/
theorem configureStartsAfresh : Obligations.ConfigureStartsAfresh := by
  intro s total os
  rw [← configLegal_iff]
  refine ⟨fun hlegal => ?_, fun hillegal => ?_⟩
  · obtain ⟨htotal, hos, _⟩ := (configLegal_iff s.cfg total os).mp hlegal
    have osValue : ((os.toNat : Nat) : Int) = os := Int.toNat_of_nonneg (by omega)
    exact ⟨s.configured total.toNat os.toNat, by rw [command, configure_of_legal hlegal]; rfl,
      Int.toNat_of_nonneg (by omega), osValue, configured_reads s _ _, fun r => by cases r <;> rfl, rfl, rfl, osValue,
      rfl, rfl, rfl, rfl, rfl⟩
  · rw [command, configure_of_not_legal hillegal]
    rfl

/-- Settles O41: the power-on sizes are legal, and CONFIGURE leaves the power-on state but for the draw count it does not
write. -/
theorem powerOnIsConfigure : Obligations.PowerOnIsConfigure := by
  intro c s hwf hcfg hdraw
  subst hcfg
  rw [command, configure_of_legal (configLegal_powerOn hwf)]
  change (Reply.ok, { State.powerOn s.cfg with drawCount := s.drawCount }) = _
  rw [hdraw]
  rfl

end Sys2Proof.Proofs
end

section
/-! Proofs: the read-only commands (10_state.md R53, 20_memory.md R67) and SET_PROGRAM_START (40_execute.md R139). -/

namespace Sys2Proof.Machine

theorem snapshot_length (s : State) : s.snapshot.length = s.size := by
  rw [State.snapshot, List.length_map, List.length_range]

theorem snapshot_row {s : State} {a : Nat} {row : SnapshotRow} (h : s.snapshot[a]? = some row) :
    row.address = a ∧ row.region = s.region a ∧ row.label = s.labelAt a ∧ row.value = s.memRead a := by
  have inside : a < s.size := snapshot_length s ▸ (List.getElem?_eq_some_iff.mp h).1
  rw [State.snapshot, List.getElem?_map, List.getElem?_range inside] at h
  cases h
  exact ⟨rfl, rfl, rfl, rfl⟩

end Sys2Proof.Machine

namespace Sys2Proof.Proofs

open Sys2Proof.Machine

/-- Settles O48: each of the three commands answers from the state and hands it back, and the snapshot maps the addresses
in order. -/
theorem readOnlyCommandsOnlyShow : Obligations.ReadOnlyCommandsOnlyShow := by
  refine fun s => ⟨fun c hc => ?_, snapshot_length s, fun a row => snapshot_row⟩
  simp only [List.mem_cons, List.not_mem_nil, or_false] at hc
  obtain rfl | rfl | rfl := hc <;> rfl

/-- Settles O58: the width of the argument is all that is tested. -/
theorem setProgramStartWritesPcAlone : Obligations.SetProgramStartWritesPcAlone :=
  fun _ _ => ⟨fun h => if_pos h, fun h => if_neg (ne_true_of_eq_false h)⟩

end Sys2Proof.Proofs
end

section
/-! Proofs: LOAD_PROGRAM and the host's RESET (60_exceptions.md R205, 70_reset_and_hazards.md R224, R230). -/

namespace Sys2Proof.Machine

variable {s : State} {first : InstrObject} {rest : List InstrObject}

/-- The state in which a load starts the first instruction. -/
def State.imaged (s : State) (first : InstrObject) (rest : List InstrObject) : State :=
  (writeImage (first :: rest) s.engineReset).holdProgram first rest

theorem imaged_cfg (s : State) (first : InstrObject) (rest : List InstrObject) : (s.imaged first rest).cfg = s.cfg := by
  obtain ⟨m, l, h⟩ := writeImageFrom_eq (first :: rest) 0 s.engineReset.clearUser
  rw [State.imaged, writeImage, h]
  rfl

theorem imaged_ready (hfit : ((first :: rest).length : Int) ≤ s.userSize) :
    ReadyToStart first rest s (s.imaged first rest) :=
  readyToStart_of_fits s first rest hfit

theorem commitLoad_eq (first : InstrObject) (rest : List InstrObject) (s : State) :
    commitLoad first rest s = firstAtLoad first (s.imaged first rest) := rfl

/-- Everything the first instruction can do at load: take effect as MOV-with-immediate, be skipped, or run at the port to
success or to its fault. -/
theorem firstAtLoad_cases (f : InstrObject) (u : State) :
    (∃ v, f.imm = some v ∧ firstAtLoad f u = (u.setReg f.reg v).enterLoaded) ∨ firstAtLoad f u = u.enterLoaded ∨
    (∃ t, executeCode f.code u = .ok t ∧ firstAtLoad f u = t.enterLoaded) ∨
    (∃ e t, executeCode f.code u = .fail e t ∧ firstAtLoad f u = t.haltAtLoad e) := by
  cases hm : isMovImm u.cfg f with
  | true =>
    have taken := firstAtLoad_movImm f u hm
    cases hi : f.imm with
    | none => simp [isMovImm, immPresent, hi] at hm
    | some v => exact .inl ⟨v, rfl, by rw [taken, hi]; rfl⟩
  | false =>
    cases hf : u.cfg.firstAtLoad with
    | skip => exact .inr (.inl (by rw [firstAtLoad_skip f u hf, hm]; rfl))
    | execute =>
      have runs := firstAtLoad_execute f u hf hm
      cases he : executeCode f.code u with
      | ok t => exact .inr (.inr (.inl ⟨t, rfl, by rw [runs, he]⟩))
      | fail e t => exact .inr (.inr (.inr ⟨e, t, rfl, by rw [runs, he]⟩))

/-- A load or a RESET whose first instruction does not reach the port. -/
theorem command_of_loadsProgram_of_not_executed {c : Command} (hc : LoadsProgram c s (first :: rest))
    (hfit : ((first :: rest).length : Int) ≤ s.userSize)
    (hfirst : isMovImm s.cfg first = true ∨ s.cfg.firstAtLoad = .skip) :
    ∃ u, ReadyToStart first rest s u ∧
      command c s = (.ok, { (if isMovImm s.cfg first = true then u.setReg first.reg (first.imm.getD 0) else u) with
        currentIndex := 1, runState := .loaded }) := by
  have ready := imaged_ready hfit
  refine ⟨s.imaged first rest, ready, (command_of_loadsProgram hc hfit).trans (congrArg (Prod.mk Reply.ok) ?_)⟩
  rw [← ready.cfg] at hfirst ⊢
  obtain hmov | hskip := hfirst
  · rw [if_pos hmov]
    exact firstAtLoad_movImm first _ hmov
  · exact firstAtLoad_skip first _ hskip

/-- A source of comment lines alone parses to no program. -/
theorem parseSource_of_comments (c : Config) (n : Nat) {lines : List Text} (h : ∀ line ∈ lines, isComment line = true) :
    parseSource c n lines = .ok [] := by
  induction lines generalizing n with
  | nil => rfl
  | cons line rest ih =>
    rw [parseSource, if_pos (h line (List.mem_cons_self ..))]
    exact ih (n + 1) fun l hl => h l (List.mem_cons_of_mem _ hl)

theorem command_load_of_parsed {lines : List Text} {prog : List InstrObject} (h : parseSource s.cfg 1 lines = .ok prog) :
    command (.loadProgram (some lines)) s = loadParsed prog s := by
  simp only [command, loadLines, h]

theorem command_load_of_bad {lines : List Text} {bad : BadLine} (h : parseSource s.cfg 1 lines = .error bad) :
    command (.loadProgram (some lines)) s = (.fail (.parse bad), s) := by
  simp only [command, loadLines, h]

theorem loadParsed_of_tooLong (h : s.userSize < ((first :: rest).length : Int)) :
    loadParsed (first :: rest) s = (.fail .loadTooLong, s) :=
  if_pos h

theorem loadParsed_of_fits (h : ((first :: rest).length : Int) ≤ s.userSize) :
    loadParsed (first :: rest) s = (.ok, commitLoad first rest s) :=
  if_neg (by omega)

theorem command_reset_of_program (h : s.program = first :: rest) : command .reset s = loadParsed (first :: rest) s := by
  simp only [command, hostReset, h]

theorem command_reset_of_no_program (h : s.program = []) :
    command .reset s = (.ok, { s.engineReset with runState := .idle }) := by
  simp only [command, hostReset, h]

end Sys2Proof.Machine

namespace Sys2Proof.Proofs

open Sys2Proof.Machine

/-- Settles O42: a source that parses and fits is committed, and the first instruction stays away from the port. -/
theorem loadLeavesTheImageAndLoaded : Obligations.LoadLeavesTheImageAndLoaded :=
  fun _ lines _ _ hparse hfit hfirst => command_of_loadsProgram_of_not_executed (.inl ⟨lines, rfl, hparse⟩) hfit hfirst

/-- Settles O45: RESET and a load of the same program are the same `loadParsed`, or the Engine reset and IDLE. -/
theorem resetReloadsTheHeldProgram : Obligations.ResetReloadsTheHeldProgram := by
  refine ⟨fun s lines hheld hparse => ?_, fun s first rest hheld hfit hfirst => ?_, fun s hnone => ?_⟩
  · obtain ⟨first, rest, hp⟩ := List.exists_cons_of_ne_nil hheld
    rw [command_reset_of_program hp, command_load_of_parsed hparse, hp]
  · exact command_of_loadsProgram_of_not_executed (.inr ⟨rfl, hheld⟩) hfit hfirst
  · exact command_reset_of_no_program hnone

/-- Settles O55: the commit hands the first code to the port in the state that is ready to start. -/
theorem loadExecutesTheFirstInstruction : Obligations.LoadExecutesTheFirstInstruction := by
  intro c s first rest hload hfit hmov hmode
  have ready := imaged_ready hfit
  have commits : command c s = (.ok, firstAtLoad first (s.imaged first rest)) := command_of_loadsProgram hload hfit
  rw [← ready.cfg] at hmov hmode
  rw [firstAtLoad_execute first _ hmode hmov] at commits
  refine ⟨s.imaged first rest, ready, fun v hv => ?_, fun e v hv => ?_⟩
  · rw [execute_codeBits] at hv
    rw [commits, hv]
    rfl
  · rw [execute_codeBits] at hv
    rw [commits, hv]
    rfl

/-- Settles O56: each check hands back the state it was given. -/
theorem loadRefusesBadSources : Obligations.LoadRefusesBadSources := by
  refine fun s lines => ⟨rfl, fun bad => command_load_of_bad, fun hcomments => ?_, fun first rest hparse hlong => ?_⟩
  · exact command_load_of_parsed (parseSource_of_comments s.cfg 1 hcomments)
  · exact (command_load_of_parsed hparse).trans (loadParsed_of_tooLong hlong)

end Sys2Proof.Proofs
end

section
/-! Proofs: what the commands have in common, from one lemma of everything a command can do (60_exceptions.md section 3). -/

namespace Sys2Proof.Machine

variable {s t : State} {c : Command} {reply : Reply}

/-- Everything a command can do: its reply and the state it leaves. -/
inductive CommandEffect (s : State) : Command → Reply → State → Prop where
  | refused {c : Command} {reason : Reason} (h : ∀ e, reason ≠ .exec e) : CommandEffect s c (.fail reason) s
  | shown {c : Command} {reply : Reply} (h : ∀ reason, reply ≠ .fail reason) : CommandEffect s c reply s
  | configured {total os : Int} (h : configLegal s.cfg total os = true) :
      CommandEffect s (.configure total os) .ok (s.configured total.toNat os.toNat)
  | resized {n : Int} (h : (s.cfg.minSize : Int) ≤ n ∧ n ≤ s.cfg.maxSize) :
      CommandEffect s (.resize n) .ok (s.resizeTo n.toNat)
  | forced {a v : Int} {lbl : Text} (hv : inSW s.cfg.width v = true) (ha : s.inMemory a = true) :
      CommandEffect s (.forceWrite a v lbl) .ok (s.putAt a v (some lbl))
  | cleared : CommandEffect s .clearUser .ok s.clearUser
  | loaded {c : Command} {first : InstrObject} {rest : List InstrObject} (h : LoadsProgram c s (first :: rest))
      (hfit : ((first :: rest).length : Int) ≤ s.userSize) : CommandEffect s c .ok (commitLoad first rest s)
  | stepped {reply : Reply} {t : State} (h : step s = .next t)
      (hr : ∀ reason, reply = .fail reason → ∃ e, reason = .exec e) : CommandEffect s .step reply t
  | ran (h : s.runnable = true) : CommandEffect s .run .ok { s with running := true }
  | stopped : CommandEffect s .stop .ok { s with running := false }
  | emptied (h : s.program = []) : CommandEffect s .reset .ok { s.engineReset with runState := .idle }
  | executed {code : Text} {bits : List Bool} {reply : Reply} {t : State} (h : portReply (execute bits s) = (reply, t)) :
      CommandEffect s (.execute code) reply t
  | startSet {a : Int} (h : inSW s.cfg.width a = true) : CommandEffect s (.setProgramStart a) .ok (s.setProgramStart a)

theorem loadParsed_effect {prog : List InstrObject} (h : LoadsProgram c s prog) :
    CommandEffect s c (loadParsed prog s).1 (loadParsed prog s).2 := by
  cases prog with
  | nil => exact .refused nofun
  | cons first rest =>
    by_cases hfit : ((first :: rest).length : Int) ≤ s.userSize
    · rw [loadParsed_of_fits hfit]
      exact .loaded h hfit
    · rw [loadParsed_of_tooLong (by omega)]
      exact .refused nofun

theorem step_effect (s : State) : CommandEffect s .step (command .step s).1 (command .step s).2 := by
  cases hr : s.runnable with
  | false =>
    rw [command_step_of_not_runnable hr]
    exact .refused nofun
  | true =>
    obtain ⟨t, ht⟩ := step_of_runnable hr
    rw [command_step_of_next ht]
    refine .stepped ht fun reason hreason => ?_
    by_cases hhalt : t.runState = .halted
    · obtain ⟨_, e, _, _, rfl⟩ := step_halted ht hhalt
      rw [command_step_of_faulted ht] at hreason
      cases hreason
      exact ⟨e, rfl⟩
    · rw [command_step_of_next_of_ne_halted ht hhalt] at hreason
      cases hreason

/-- Every command is one of the effects. -/
theorem command_effect (c : Command) (s : State) : CommandEffect s c (command c s).1 (command c s).2 := by
  cases c with
  | configure total os =>
    by_cases h : configLegal s.cfg total os = true
    · rw [command, configure_of_legal h]
      exact .configured h
    · rw [command, configure_of_not_legal h]
      exact .refused nofun
  | resize n =>
    by_cases h : (s.cfg.minSize : Int) ≤ n ∧ n ≤ s.cfg.maxSize
    · rw [command, resize_of_bounds h]
      exact .resized h
    · rw [command, resize_of_not_bounds (by omega)]
      exact .refused nofun
  | forceWrite a v lbl =>
    by_cases hv : inSW s.cfg.width v = true
    · rw [command_forceWrite_of_inSW hv]
      by_cases ha : s.inMemory a = true
      · rw [forceWrite_of_inMemory v lbl ha]
        exact .forced hv ha
      · rw [forceWrite_of_not_inMemory v lbl ha]
        exact .refused nofun
    · rw [command, if_neg hv]
      exact .refused nofun
  | clearUser => exact .cleared
  | loadProgram source =>
    cases source with
    | none => exact .refused nofun
    | some lines =>
      cases hp : parseSource s.cfg 1 lines with
      | error bad =>
        rw [command_load_of_bad hp]
        exact .refused nofun
      | ok prog =>
        rw [command_load_of_parsed hp]
        exact loadParsed_effect (.inl ⟨lines, rfl, hp⟩)
  | step => exact step_effect s
  | run =>
    cases hr : s.runnable with
    | true =>
      rw [command_run_of_runnable hr]
      exact .ran hr
    | false =>
      rw [command_run_of_not_runnable hr]
      exact .refused nofun
  | stop => exact .stopped
  | reset =>
    cases hp : s.program with
    | nil =>
      rw [command_reset_of_no_program hp]
      exact .emptied hp
    | cons first rest =>
      rw [command_reset_of_program hp]
      exact loadParsed_effect (.inr ⟨rfl, hp⟩)
  | execute code =>
    cases hb : bitsOfText code with
    | none =>
      rw [command_execute_of_not_bits hb]
      exact .refused nofun
    | some bits =>
      rw [command_execute_of_bits hb]
      exact .executed rfl
  | setProgramStart a =>
    by_cases h : inSW s.cfg.width a = true
    · rw [command, if_pos h]
      exact .startSet h
    · rw [command, if_neg h]
      exact .refused nofun
  | read a => exact .shown nofun
  | status => exact .shown nofun
  | snapshot => exact .shown nofun
  | listing => exact .shown nofun

theorem step_cfg (h : step s = .next t) : t.cfg = s.cfg := by
  obtain ⟨_, ⟨_, rfl⟩ | ⟨_, ⟨_, _, rfl⟩ | advanced⟩⟩ := step_ends h
  · rfl
  · rfl
  · exact advanced.cfg

theorem commitLoad_cfg (first : InstrObject) (rest : List InstrObject) (s : State) :
    (commitLoad first rest s).cfg = s.cfg := by
  rw [commitLoad_eq, ← imaged_cfg s first rest]
  have port := (executeCode_portFrame first.code (s.imaged first rest)).seq.cfg
  obtain ⟨v, _, h⟩ | h | ⟨t, ht, h⟩ | ⟨e, t, ht, h⟩ := firstAtLoad_cases first (s.imaged first rest) <;> rw [h]
  · exact State.setReg_cfg ..
  · rfl
  · rw [ht] at port
    exact port
  · rw [ht] at port
    exact port

theorem portReply_frame {bits : List Bool} (h : portReply (execute bits s) = (reply, t)) : PortFrame s t := by
  have frame := execute_portFrame bits s
  rw [← portReply_state, h] at frame
  exact frame

/-- The parameters are written by no command (00_scope.md R8). -/
theorem CommandEffect.cfg (h : CommandEffect s c reply t) : t.cfg = s.cfg := by
  cases h with
  | loaded => exact commitLoad_cfg ..
  | stepped hstep => exact step_cfg hstep
  | executed hport => exact (portReply_frame hport).seq.cfg
  | _ => rfl

/-- A failure that is no ExecutionFault is a refusal (60_exceptions.md R186). -/
theorem CommandEffect.eq_of_fail {reason : Reason} (h : CommandEffect s c (.fail reason) t)
    (hreason : ∀ e, reason ≠ .exec e) : t = s := by
  cases h with
  | refused => rfl
  | shown hshown => exact absurd rfl (hshown reason)
  | stepped _ hreply =>
    obtain ⟨e, he⟩ := hreply reason rfl
    exact absurd he (hreason e)
  | @executed _ bits _ _ hport =>
    cases hb : execute bits s <;> rw [hb] at hport <;> cases hport
    exact absurd rfl (hreason _)

/-- What can leave HALTED (60_exceptions.md R185). -/
theorem CommandEffect.of_leaves_halted (h : CommandEffect s c reply t) (hs : s.runState = .halted)
    (ht : t.runState ≠ .halted) : (∃ src, c = .loadProgram src) ∨ c = .reset ∨ ∃ total os, c = .configure total os := by
  cases h with
  | configured => exact .inr (.inr ⟨_, _, rfl⟩)
  | emptied => exact .inr (.inl rfl)
  | loaded hload =>
    obtain ⟨lines, hc, _⟩ | ⟨hc, _⟩ := hload
    · exact .inl ⟨_, hc⟩
    · exact .inr (.inl hc)
  | stepped hstep =>
    obtain ⟨hrun, _⟩ := step_ends hstep
    rw [State.runnable_iff, hs] at hrun
    simp at hrun
  | executed hport => exact absurd ((portReply_frame hport).seq.runState.trans hs) ht
  | _ => exact absurd hs ht

/-! ## Auto-run -/

theorem autoRun_succ_of_running (h : s.running = true) (k : Nat) : autoRun (k + 1) s = autoRun k (command .step s).2 :=
  if_pos h

/-- Auto-run at rest: the run has ended, and `running` is off. -/
def State.Ended (s : State) : Prop := (s.runState = .completed ∨ s.runState = .halted) ∧ s.running = false

/-- A step ends the run, or leaves it going with one instruction fewer. -/
theorem step_progress (h : step s = .next t) : t.Ended ∨
    (t.runState = .stepping ∧ t.running = s.running ∧ t.program = s.program ∧ t.currentIndex = s.currentIndex + 1 ∧
      t.currentIndex < s.program.length) := by
  obtain ⟨_, ⟨_, rfl⟩ | ⟨hleft, ⟨_, _, rfl⟩ | advanced⟩⟩ := step_ends h
  · exact .inl ⟨.inl rfl, rfl⟩
  · exact .inl ⟨.inr rfl, rfl⟩
  · have index : t.currentIndex = s.currentIndex + 1 := advanced.index
    by_cases hend : s.currentIndex + 1 = s.program.length
    · obtain ⟨completed, off⟩ := advanced.atEnd hend
      exact .inl ⟨.inl completed, off⟩
    · obtain ⟨stepping, running⟩ := advanced.before hend
      exact .inr ⟨stepping, running, advanced.program, index, by omega⟩

theorem autoRun_ended (k : Nat) (hrun : s.runnable = true) (hrunning : s.running = true)
    (hk : s.program.length - s.currentIndex + 1 ≤ k) : (autoRun k s).Ended := by
  induction k generalizing s with
  | zero => omega
  | succ k ih =>
    obtain ⟨t, ht⟩ := step_of_runnable hrun
    rw [autoRun_succ_of_running hrunning, command_step_of_next ht]
    obtain ended | ⟨stepping, running, program, index, hleft⟩ := step_progress ht
    · rw [autoRun_of_not_running ended.2]
      exact ended
    · exact ih (t.runnable_iff.mpr (.inr stepping)) (running.trans hrunning) (by rw [program]; omega)

end Sys2Proof.Machine

namespace Sys2Proof.Proofs

open Sys2Proof.Machine

/-- Settles O49: no effect of a command writes the parameters. -/
theorem parametersAreNeverWritten : Obligations.ParametersAreNeverWritten := fun c s => (command_effect c s).cfg

/-- Settles O43: a command fails by a refusal or with an ExecutionFault. -/
theorem failedHostCommandsChangeNothing : Obligations.FailedHostCommandsChangeNothing := by
  intro c s t reason h
  have effect := command_effect c s
  rw [h] at effect
  exact effect.eq_of_fail

/-- Settles O44: every other effect keeps the run state or needs a runnable one. -/
theorem haltedIsSticky : Obligations.HaltedIsSticky := by
  intro c s hs
  have blocked := s.runnable_eq_false_iff.mpr (.inr (.inl hs))
  exact ⟨(command_effect c s).of_leaves_halted hs, command_step_of_not_runnable blocked,
    command_run_of_not_runnable blocked, fun s' hrunning => autoRun_succ_of_running hrunning 0⟩

/-- Settles O46: each step of auto-run ends the run or leaves one instruction fewer. -/
theorem autoRunEnds : Obligations.AutoRunEnds :=
  fun s k hrun hrunning hk => autoRun_ended k (s.runnable_iff.mpr hrun) hrunning hk

/-- Settles O57: RUN sets the flag that the next boundary of auto-run reads. -/
theorem runStartsAutoRun : Obligations.RunStartsAutoRun := by
  intro s k hrun
  have starts := command_run_of_runnable (s.runnable_iff.mpr hrun)
  refine ⟨starts, ?_⟩
  rw [starts]
  exact autoRun_succ_of_running rfl k

end Sys2Proof.Proofs
end

section
/-! Proofs: the half of the invariant about the Engine and the arbiter (10_state.md R40, 41_register_ops.md R161). -/

namespace Sys2Proof.Machine

/-- The clauses of the invariant about the parameters, the sizes, the registers and the memory. -/
structure State.DataInv (s : State) : Prop where
  params : s.cfg.wf = true
  config : s.ConfigLegal
  sizeBound : s.size ≤ s.cfg.maxSize
  regs : ∀ r : Reg, inSW s.cfg.width (s.reg r) = true
  ac : inSW s.cfg.width s.AC = true
  pc : inSW s.cfg.width s.PC = true
  memWf : Memory.wf s.mem = true
  memCells : ∀ c ∈ s.mem, c.1 < s.size ∧ inSW s.cfg.width c.2 = true
  labelsWf : Labels.wf s.labels = true
  labelCells : ∀ c ∈ s.labels, c.1 < s.size

variable {s t : State}

/-- An instruction issued for a parsed object is well formed: its side-band is the object's immediate or none. -/
theorem wf_of_decodeIssue {c : Config} {ins : InstrObject} {i : Instr} (hparsed : InstrObject.Parsed c ins)
    (h : decodeIssue (issueOf c ins) = .ok i) : i.wf c = true := by
  rw [decodeIssue_of_decode_ok hparsed.decode] at h
  cases h
  cases ins.op with
  | mov =>
    cases himm : (issueOf c ins).imm with
    | none => rfl
    | some v =>
      refine hparsed.imm v ?_
      simp only [issueOf] at himm
      split at himm
      · exact himm
      · cases himm
  | _ => rfl

/-- The OS size RESIZE computes is legal where the parameters are sound (20_memory.md R65). -/
theorem resizedOsSize_legal {c : Config} {n : Nat} (h : c.wf = true) (hn : c.minSize ≤ n) :
    c.minOs ≤ resizedOsSize c n ∧ resizedOsSize c n + c.minUser ≤ n := by
  obtain ⟨_, _, _, hsound, _⟩ := c.wf_iff.mp h
  obtain ⟨hdiv, hmin, huser, htwice⟩ := of_decide_eq_true hsound
  have half : n / c.resizeDiv ≤ n / 2 := Nat.div_le_div_left hdiv (by decide)
  rw [resizedOsSize]
  omega

theorem State.Inv.dataInv (h : s.Inv) : s.DataInv := { h with }

namespace State.DataInv

/-- The state with other values in the fields the data half does not speak of. -/
theorem setOthers (h : s.DataInv) (ir : BitVec 8) (rs : RunState) (prog : List InstrObject) (i : Nat) (b : Bool)
    (f : Option ExecFault) (k : Nat) :
    State.DataInv { s with IR := ir, runState := rs, program := prog, currentIndex := i, running := b, lastFault := f,
                           drawCount := k } :=
  { h with config := { h.config with } }

theorem setPC (h : s.DataInv) {p : Int} (hp : inSW s.cfg.width p = true) : State.DataInv { s with PC := p } :=
  { h with config := { h.config with }, pc := hp }

theorem setAC (h : s.DataInv) {v : Int} (hv : inSW s.cfg.width v = true) : (s.setAC v).DataInv :=
  { h with config := { h.config with }, ac := hv }

theorem setReg (h : s.DataInv) (r : Reg) {v : Int} (hv : inSW s.cfg.width v = true) : (s.setReg r v).DataInv := by
  have regs (q : Reg) : inSW s.cfg.width ((s.setReg r v).reg q) = true := by
    by_cases hq : q = r
    · rw [hq, State.reg_setReg_same]
      exact hv
    · rw [State.reg_setReg_other s r q v hq]
      exact h.regs q
  cases r <;> exact { h with config := { h.config with }, regs := regs }

/-- A word and perhaps a label put in place inside the memory. -/
theorem putAt (h : s.DataInv) {a v : Int} (ha : s.inMemory a = true) (hv : inSW s.cfg.width v = true)
    (lbl : Option Text) : (s.putAt a v lbl).DataInv := by
  have inside : a.toNat < s.size := by
    rw [State.inMemory_iff] at ha
    omega
  refine { h with
    config := { h.config with }
    memWf := Cells.wf_put 0 _ v h.memWf
    memCells := fun c hc => ?_
    labelsWf := putLabel_wf _ lbl h.labelsWf
    labelCells := fun c hc => ?_ }
  · obtain rfl | hc := Cells.mem_put 0 hc
    · exact ⟨inside, hv⟩
    · exact h.memCells c hc
  · cases lbl with
    | none => exact h.labelCells c hc
    | some l =>
      obtain rfl | hc := Cells.mem_put [] hc
      · exact inside
      · exact h.labelCells c hc

theorem clearUser (h : s.DataInv) : s.clearUser.DataInv :=
  { h with
    config := { h.config with }
    memWf := Cells.wf_clear 0 _ _ h.memWf
    memCells := fun c hc => h.memCells c (List.mem_filter.mp hc).1
    labelsWf := Cells.wf_clear [] _ _ h.labelsWf
    labelCells := fun c hc => h.labelCells c (List.mem_filter.mp hc).1 }

/-- The OS region lies within the memory and so its size is an address or the one after the last. -/
theorem inSW_osSize (h : s.DataInv) : inSW s.cfg.width s.osSize = true := by
  have user := h.config.user
  have bound := h.sizeBound
  exact inSW_of_le_maxSize h.params (by omega) (by omega)

theorem engineReset (h : s.DataInv) : s.engineReset.DataInv :=
  { h with
    config := { h.config with }
    regs := fun r => by rw [s.reg_engineReset]; exact inSW_zero _
    ac := inSW_zero _
    pc := h.inSW_osSize }

/-- An Engine effect of a well-formed instruction keeps the data half, whether it succeeds or fails. -/
theorem engineOf (h : s.DataInv) {i : Instr} (hi : i.wf s.cfg = true) : (engineOf i s).state.DataInv := by
  have narrowed (n : Int) : (s.setACnarrowed n).DataInv := by
    obtain ⟨k, hk⟩ := setACnarrowed_eq s n
    rw [hk]
    exact (h.setAC (toSW_inSW s n)).setOthers s.IR s.runState s.program s.currentIndex s.running s.lastFault k
  cases i with
  | load r => exact h.setAC (h.regs r)
  | mov r => exact h.setReg r h.ac
  | movImm r v => exact h.setReg r hi
  | add r => exact narrowed _
  | sub r => exact narrowed _
  | store r =>
    obtain ⟨hu, hs⟩ | ⟨_, hs⟩ := engineStore_cases r s <;> rw [Machine.engineOf, hs]
    · exact (h.putAt (State.inMemory_of_inUser hu) h.ac none).setReg r h.ac
    · exact h

theorem latchIR (h : s.DataInv) (code : BitVec 8) : (s.latchIR code).DataInv := h.setOthers code _ _ _ _ _ _

theorem fetched (h : s.DataInv) (code : BitVec 8) : (s.latchIR code).enterStepping.DataInv :=
  h.setOthers code .stepping _ _ _ _ _

theorem faulted (h : s.DataInv) (code : BitVec 8) (e : ExecFault) : (s.faulted code e).DataInv :=
  h.setOthers code .halted _ _ false (some e) _

theorem finish (h : s.DataInv) : s.advancePC.advanceIndex.DataInv := by
  obtain ⟨p, k, r, b, he, _, hp, _⟩ := finish_eq s
  rw [he]
  exact (h.setPC hp).setOthers _ r _ _ b _ k

theorem executeCode (h : s.DataInv) (code : BitVec 8) : (executeCode code s).state.DataInv := by
  obtain ⟨e, _, he⟩ | ⟨op, r, _, he⟩ := executeCode_cases code s <;> rw [he]
  · exact h.latchIR code
  · exact (h.latchIR code).engineOf (by cases op <;> rfl)

theorem execute (h : s.DataInv) (bits : List Bool) : (execute bits s).state.DataInv := by
  obtain he | ⟨code, he⟩ := execute_cases bits s <;> rw [he]
  · exact h
  · exact h.executeCode code

theorem step (h : s.DataInv) (hparsed : ∀ ins ∈ s.program, InstrObject.Parsed s.cfg ins) (hstep : step s = .next t) :
    t.DataInv := by
  obtain ⟨_, ⟨_, rfl⟩ | ⟨ins, hp, ⟨e, _, rfl⟩ | ⟨i, hd, _, ⟨u, hu, rfl⟩ | ⟨r, _, _, rfl⟩⟩⟩⟩ := step_cases hstep
  · exact h.setOthers _ .completed _ _ false _ _
  · exact h.faulted ..
  · have effect := (h.fetched ins.code).engineOf (wf_of_decodeIssue (hparsed ins (List.mem_of_getElem? hp)) hd)
    rw [hu] at effect
    exact effect.finish
  · exact h.faulted ..

/-- A code, zero-extended, is a word (20_memory.md R70). -/
theorem inSW_code (h : s.DataInv) (code : BitVec 8) : inSW s.cfg.width (code.toNat : Int) = true := by
  have wide := le_halfRange (s.cfg.wf_iff.mp h.params).1
  have bound := code.isLt
  rw [inSW_iff]
  omega

theorem writeImageFrom (h : s.DataInv) (prog : List InstrObject) (i : Nat) : (writeImageFrom i prog s).DataInv := by
  induction prog generalizing i s with
  | nil => exact h
  | cons ins rest ih =>
    apply ih
    cases hu : s.inUser (s.userStart + i) with
    | true =>
      rw [memWrite_of_inUser _ _ hu]
      exact h.putAt (State.inMemory_of_inUser hu) (h.inSW_code ins.code) _
    | false =>
      rw [State.memWrite, hu]
      exact h

theorem imaged (h : s.DataInv) (first : InstrObject) (rest : List InstrObject)
    (hfit : ((first :: rest).length : Int) ≤ s.userSize) : (s.imaged first rest).DataInv := by
  have image := h.engineReset.clearUser.writeImageFrom (first :: rest) 0
  have ready := imaged_ready hfit
  have pc : inSW s.cfg.width (s.imaged first rest).PC = true := by
    have bound := h.sizeBound
    rw [ready.pc]
    rw [State.userSize, List.length_cons] at hfit
    exact inSW_of_le_maxSize h.params (by omega) (by omega)
  rw [← ready.cfg] at pc
  exact (image.setOthers first.code _ (first :: rest) _ false none _).setPC pc

theorem commitLoad (h : s.DataInv) {first : InstrObject} {rest : List InstrObject}
    (hfit : ((first :: rest).length : Int) ≤ s.userSize) (hfirst : InstrObject.Parsed s.cfg first) :
    (commitLoad first rest s).DataInv := by
  have base := h.imaged first rest hfit
  rw [commitLoad_eq]
  have port := base.executeCode first.code
  obtain ⟨v, hv, he⟩ | he | ⟨t, ht, he⟩ | ⟨e, t, ht, he⟩ := firstAtLoad_cases first (s.imaged first rest) <;> rw [he]
  · have wide : inSW (s.imaged first rest).cfg.width v = true := by
      rw [imaged_cfg]
      exact hfirst.imm v hv
    exact (base.setReg first.reg wide).setOthers _ .loaded _ 1 _ _ _
  · exact base.setOthers _ .loaded _ 1 _ _ _
  · rw [ht] at port
    exact port.setOthers _ .loaded _ 1 _ _ _
  · rw [ht] at port
    exact port.setOthers _ .halted _ 0 _ (some e) _

theorem configured (hwf : s.cfg.wf = true) {total os : Int} (h : configLegal s.cfg total os = true) :
    (s.configured total.toNat os.toNat).DataInv := by
  obtain ⟨htotal, hos, hminSize, hminOs, huser, hmax⟩ := (configLegal_iff s.cfg total os).mp h
  have sizes : s.cfg.minSize ≤ total.toNat ∧ s.cfg.minOs ≤ os.toNat ∧ os.toNat + s.cfg.minUser ≤ total.toNat ∧
      total.toNat ≤ s.cfg.maxSize := by omega
  obtain ⟨size, osSize, user, bound⟩ := sizes
  have start : inSW s.cfg.width (os.toNat : Int) = true := inSW_of_le_maxSize hwf (Int.natCast_nonneg _) (by omega)
  exact {
    params := hwf
    config := ⟨size, osSize, user⟩
    sizeBound := bound
    regs := fun r => by cases r <;> exact inSW_zero _
    ac := inSW_zero _
    pc := start
    memWf := rfl
    memCells := nofun
    labelsWf := rfl
    labelCells := nofun }

theorem resizeTo (h : s.DataInv) {n : Nat} (hlo : s.cfg.minSize ≤ n) (hhi : n ≤ s.cfg.maxSize) :
    (s.resizeTo n).DataInv := by
  obtain ⟨hos, huser⟩ := resizedOsSize_legal h.params hlo
  exact { h with
    config := ⟨hlo, hos, huser⟩
    sizeBound := hhi
    memWf := Cells.wf_below 0 _ h.memWf
    memCells := fun c hc => by
      obtain ⟨hmem, hbelow⟩ := List.mem_filter.mp hc
      exact ⟨lt_of_lt_of_le (of_decide_eq_true hbelow) (Nat.min_le_right _ _), (h.memCells c hmem).2⟩
    labelsWf := Cells.wf_below [] _ h.labelsWf
    labelCells := fun c hc => by
      obtain ⟨_, hbelow⟩ := List.mem_filter.mp hc
      exact lt_of_lt_of_le (of_decide_eq_true hbelow) (Nat.min_le_right _ _) }

end State.DataInv

end Sys2Proof.Machine
end

section
/-! Proofs: the half of the invariant about the sequencer (60_exceptions.md R201, R205 to R209), and the invariant whole. -/

namespace Sys2Proof.Machine

/-- The clauses of the invariant about the program and the run state. -/
structure State.SequencerInv (s : State) : Prop where
  parsed : ∀ ins ∈ s.program, InstrObject.Parsed s.cfg ins
  cursor : s.CursorPlaced
  running : s.running = true → s.runnable = true
  faultKept : s.runState = .halted ↔ s.lastFault.isSome = true
  idle : s.runState = .idle ↔ s.program = []

variable {s t u : State} {first : InstrObject} {rest : List InstrObject}

theorem State.inv_iff (s : State) : s.Inv ↔ s.DataInv ∧ s.SequencerInv :=
  ⟨fun h => ⟨{ h with }, { h with }⟩, fun ⟨hd, hs⟩ => { hd, hs with }⟩

namespace State.SequencerInv

theorem of_same (h : s.SequencerInv) (same : SameSequencer s t) : t.SequencerInv := by
  obtain ⟨hrs, hprog, hindex, hrunning, hfault, hcfg⟩ := same
  obtain ⟨inside, loaded, stepping, halted, completed⟩ := h.cursor
  have hrunnable : t.runnable = s.runnable := by rw [State.runnable, State.runnable, hrs]
  refine ⟨?_, ⟨?_, ?_, ?_, ?_, ?_⟩, ?_, ?_, ?_⟩ <;> simp only [hrs, hprog, hindex, hrunning, hfault, hcfg, hrunnable]
  exacts [h.parsed, inside, loaded, stepping, halted, completed, h.running, h.faultKept, h.idle]

theorem setRunning (h : s.SequencerInv) {b : Bool} (hb : b = true → s.runnable = true) :
    State.SequencerInv { s with running := b } :=
  { h with cursor := { h.cursor with }, running := hb }

/-- A state that has halted on an instruction of its program. -/
theorem of_halted (hparsed : ∀ ins ∈ t.program, InstrObject.Parsed t.cfg ins) (hrs : t.runState = .halted)
    (hfault : t.lastFault.isSome = true) (hrunning : t.running = false) (hindex : t.currentIndex < t.program.length) :
    t.SequencerInv where
  parsed := hparsed
  cursor := ⟨hindex.le, by simp [hrs], by simp [hrs], fun _ => hindex, by simp [hrs]⟩
  running := by simp [hrunning]
  faultKept := by simp [hrs, hfault]
  idle := by simp [hrs, List.ne_nil_of_length_pos (Nat.zero_lt_of_lt hindex)]

/-- A state whose program has neither halted nor been dropped. -/
theorem of_live (hparsed : ∀ ins ∈ t.program, InstrObject.Parsed t.cfg ins) (hprog : t.program ≠ [])
    (hfault : t.lastFault = none) (hinside : t.currentIndex ≤ t.program.length)
    (hrs : (t.runState = .loaded ∧ t.currentIndex = 1) ∨
      (t.runState = .stepping ∧ t.currentIndex < t.program.length) ∨
      (t.runState = .completed ∧ t.currentIndex = t.program.length ∧ t.running = false)) : t.SequencerInv := by
  obtain ⟨h, hindex⟩ | ⟨h, hindex⟩ | ⟨h, hindex, hrunning⟩ := hrs
  · exact ⟨hparsed, ⟨hinside, by simp [hindex], by simp [h], by simp [h], by simp [h]⟩,
      fun _ => t.runnable_iff.mpr (.inl h), by simp [h, hfault], by simp [h, hprog]⟩
  · exact ⟨hparsed, ⟨hinside, by simp [h], fun _ => hindex, by simp [h], by simp [h]⟩,
      fun _ => t.runnable_iff.mpr (.inr h), by simp [h, hfault], by simp [h, hprog]⟩
  · exact ⟨hparsed, ⟨hinside, by simp [h], by simp [h], by simp [h], fun _ => hindex⟩,
      by simp [hrunning], by simp [h, hfault], by simp [h, hprog]⟩

theorem lastFault_of_runnable (h : s.SequencerInv) (hr : s.runnable = true) : s.lastFault = none := by
  rw [← Option.not_isSome_iff_eq_none, ← h.faultKept]
  obtain hrs | hrs := s.runnable_iff.mp hr <;> simp [hrs]

theorem program_ne_nil_of_runnable (h : s.SequencerInv) (hr : s.runnable = true) : s.program ≠ [] := by
  rw [Ne, ← h.idle]
  obtain hrs | hrs := s.runnable_iff.mp hr <;> simp [hrs]

theorem step (h : s.SequencerInv) (hstep : step s = .next t) : t.SequencerInv := by
  obtain ⟨hr, hends⟩ := step_ends hstep
  have held := h.program_ne_nil_of_runnable hr
  have noFault := h.lastFault_of_runnable hr
  obtain ⟨hend, rfl⟩ | ⟨hleft, ⟨code, e, rfl⟩ | advanced⟩ := hends
  · have inside := h.cursor.inside
    exact of_live h.parsed held noFault inside (.inr (.inr ⟨rfl, inside.antisymm hend, rfl⟩))
  · exact of_halted h.parsed rfl rfl rfl hleft
  · have program : t.program = s.program := advanced.program
    have index : t.currentIndex = s.currentIndex + 1 := advanced.index
    have parsed : ∀ ins ∈ t.program, InstrObject.Parsed t.cfg ins := by
      rw [program, advanced.cfg]
      exact h.parsed
    refine of_live parsed (program ▸ held) (advanced.lastFault.trans noFault) (by rw [program]; omega) (.inr ?_)
    by_cases hend : s.currentIndex + 1 = s.program.length
    · obtain ⟨completed, off⟩ := advanced.atEnd hend
      exact .inr ⟨completed, by rw [program]; omega, off⟩
    · exact .inl ⟨(advanced.before hend).1, by rw [program]; omega⟩

theorem configured (s : State) (total os : Nat) : (s.configured total os).SequencerInv :=
  ⟨nofun, ⟨Nat.le_refl 0, nofun, nofun, nofun, nofun⟩, nofun, ⟨nofun, nofun⟩, ⟨fun _ => rfl, fun _ => rfl⟩⟩

end State.SequencerInv

theorem parseSource_parsed {c : Config} {lines : List Text} {n : Nat} {prog : List InstrObject}
    (h : parseSource c n lines = .ok prog) : ∀ ins ∈ prog, InstrObject.Parsed c ins := by
  induction lines generalizing n prog with
  | nil =>
    cases h
    nofun
  | cons line rest ih =>
    rw [parseSource] at h
    split at h
    · exact ih h
    · split at h
      · cases h
      · next ins hline =>
        split at h
        · cases h
        · next tail hrest =>
          cases h
          exact List.forall_mem_cons.mpr ⟨(parse_parsed hline).1, ih hrest⟩

/-- Every object that a load or a RESET brings into the program is a parsed one. -/
theorem LoadsProgram.parsed {c : Command} {prog : List InstrObject} (h : LoadsProgram c s prog) (hs : s.SequencerInv) :
    ∀ ins ∈ prog, InstrObject.Parsed s.cfg ins := by
  obtain ⟨lines, _, hparse⟩ | ⟨_, rfl⟩ := h
  · exact parseSource_parsed hparse
  · exact hs.parsed

theorem setReg_sameSequencer (s : State) (r : Reg) (v : Int) : SameSequencer s (s.setReg r v) :=
  ⟨State.setReg_runState .., State.setReg_program .., State.setReg_currentIndex .., State.setReg_running ..,
    State.setReg_lastFault .., State.setReg_cfg ..⟩

/-- A load leaves LOADED with the cursor on the second instruction, or HALTED with it on the first. -/
theorem State.SequencerInv.commitLoad (hfit : ((first :: rest).length : Int) ≤ s.userSize)
    (hparsed : ∀ ins ∈ first :: rest, InstrObject.Parsed s.cfg ins) : (commitLoad first rest s).SequencerInv := by
  have ready := imaged_ready hfit
  have parsed {t : State} (hprog : t.program = first :: rest) (hcfg : t.cfg = s.cfg) :
      ∀ ins ∈ t.program, InstrObject.Parsed t.cfg ins := by
    rw [hprog, hcfg]
    exact hparsed
  have loads {t : State} (same : SameSequencer (s.imaged first rest) t) : t.enterLoaded.SequencerInv := by
    have program : t.program = first :: rest := same.program.trans ready.program
    have noFault : t.lastFault = none := same.lastFault.trans ready.lastFault
    exact .of_live (parsed program (same.cfg.trans ready.cfg)) (by simp [program]) noFault (by simp [program])
      (.inl ⟨rfl, rfl⟩)
  have halts {t : State} (e : ExecFault) (same : SameSequencer (s.imaged first rest) t) :
      (t.haltAtLoad e).SequencerInv := by
    have program : t.program = first :: rest := same.program.trans ready.program
    refine .of_halted (parsed program (same.cfg.trans ready.cfg)) rfl rfl (same.running.trans ready.running) ?_
    simp [program]
  have port := (executeCode_portFrame first.code (s.imaged first rest)).seq
  rw [commitLoad_eq]
  obtain ⟨v, _, h⟩ | h | ⟨t, ht, h⟩ | ⟨e, t, ht, h⟩ := firstAtLoad_cases first (s.imaged first rest) <;> rw [h]
  · exact loads (setReg_sameSequencer ..)
  · exact loads (.refl _)
  · rw [ht] at port
    exact loads port
  · rw [ht] at port
    exact halts e port

theorem State.Inv.sequencerInv (h : s.Inv) : s.SequencerInv := (s.inv_iff.mp h).2

theorem State.Inv.of_same (h : s.Inv) (hdata : t.DataInv) (same : SameSequencer s t) : t.Inv :=
  t.inv_iff.mpr ⟨hdata, h.sequencerInv.of_same same⟩

theorem State.Inv.step (h : s.Inv) (hstep : step s = .next t) : t.Inv :=
  t.inv_iff.mpr ⟨h.dataInv.step h.parsed hstep, h.sequencerInv.step hstep⟩

theorem configured_inv (hwf : s.cfg.wf = true) {total os : Int} (h : configLegal s.cfg total os = true) :
    (s.configured total.toNat os.toNat).Inv :=
  (State.inv_iff _).mpr ⟨.configured hwf h, .configured s _ _⟩

theorem powerOn_inv {c : Config} (h : c.wf = true) : (State.powerOn c).Inv :=
  configured_inv (s := State.powerOn c) h (configLegal_powerOn h)

/-- Every effect of a command keeps the invariant. -/
theorem CommandEffect.inv {c : Command} {reply : Reply} (h : s.Inv) (heffect : CommandEffect s c reply t) : t.Inv := by
  have data := h.dataInv
  cases heffect with
  | refused => exact h
  | shown => exact h
  | configured hlegal => exact configured_inv h.params hlegal
  | resized hbounds => exact h.of_same (data.resizeTo (by omega) (by omega)) (resizeTo_sameSequencer s _)
  | forced hv ha => exact h.of_same (data.putAt ha hv _) ⟨rfl, rfl, rfl, rfl, rfl, rfl⟩
  | cleared => exact h.of_same data.clearUser (clearUser_sameSequencer s)
  | @loaded _ first rest hload hfit =>
    have parsed := hload.parsed h.sequencerInv
    exact (State.inv_iff _).mpr ⟨data.commitLoad hfit (parsed first (List.mem_cons_self ..)), .commitLoad hfit parsed⟩
  | stepped hstep => exact h.step hstep
  | ran hrun => exact (State.inv_iff _).mpr ⟨data.setOthers _ _ _ _ true _ _, h.sequencerInv.setRunning fun _ => hrun⟩
  | stopped => exact (State.inv_iff _).mpr ⟨data.setOthers _ _ _ _ false _ _, h.sequencerInv.setRunning nofun⟩
  | emptied hnone =>
    have idle : s.runState = .idle := h.idle.mpr hnone
    exact h.of_same (data.engineReset.setOthers _ .idle _ _ _ _ _) ⟨idle.symm, rfl, rfl, rfl, rfl, rfl⟩
  | @executed _ bits _ _ hport =>
    have left := data.execute bits
    rw [← portReply_state, hport] at left
    exact h.of_same left (portReply_frame hport).seq
  | startSet hv => exact h.of_same (data.setPC hv) ⟨rfl, rfl, rfl, rfl, rfl, rfl⟩

end Sys2Proof.Machine

namespace Sys2Proof.Proofs

open Sys2Proof.Machine

/-- Settles O51: the data half holds because every effect writes W-bit values inside the memory, the sequencer's half by the
three ends of a step. -/
theorem stepKeepsInv : Obligations.StepKeepsInv := fun _ _ => State.Inv.step

/-- Settles O52, by induction on the commands, each of which is one of the effects. -/
theorem commandsKeepInv : Obligations.CommandsKeepInv := by
  intro cs
  induction cs with
  | nil => exact fun _ h => h
  | cons c rest ih => exact fun s h => ih _ ((command_effect c s).inv h)

/-- Settles O50: the power-on state is what CONFIGURE of the power-on sizes leaves. -/
theorem powerOnSatisfiesInv : Obligations.PowerOnSatisfiesInv := by
  have sound : Config.default.wf = true := by decide
  exact ⟨sound, fun _ => powerOn_inv, powerOn_inv sound⟩

end Sys2Proof.Proofs
end

section
/-! Proofs: what the parser promises of a line and of a source (30_encoding.md R110, R116, R118). -/

namespace Sys2Proof.Machine

theorem validate_iff (c : Config) (line : Text) : validate c line = true ↔ ∃ ins, parse c line = .ok ins := by
  unfold validate
  cases parse c line <;> simp

/-- Where a source fails: at its next line, which is no comment and does not parse, or later. -/
theorem parseSource_cons_error {c : Config} {n : Nat} {line : Text} {rest : List Text} {bad : BadLine}
    (h : parseSource c n (line :: rest) = .error bad) :
    (isComment line = false ∧ validate c line = false ∧ bad = { number := n, line := line }) ∨
    ((isComment line = true ∨ validate c line = true) ∧ parseSource c (n + 1) rest = .error bad) := by
  rw [parseSource] at h
  split at h
  · next hcomment => exact .inr ⟨.inl hcomment, h⟩
  · next hcomment =>
    split at h
    · next e hline =>
      cases h
      exact .inl ⟨eq_false_of_ne_true hcomment, by rw [validate, hline], rfl⟩
    · next ins hline =>
      split at h
      · next hrest =>
        cases h
        exact .inr ⟨.inr ((validate_iff c line).mpr ⟨ins, hline⟩), hrest⟩
      · cases h

/-- `bad` is the first malformed line of `lines`, whose physical numbers begin at `n`. -/
structure FirstMalformed (c : Config) (n : Nat) (lines : List Text) (bad : BadLine) : Prop where
  number : n ≤ bad.number
  line : lines[bad.number - n]? = some bad.line
  notComment : isComment bad.line = false
  notValid : validate c bad.line = false
  before : ∀ k line, k < bad.number - n → lines[k]? = some line → isComment line = true ∨ validate c line = true

theorem FirstMalformed.cons {c : Config} {n : Nat} {line : Text} {rest : List Text} {bad : BadLine}
    (good : isComment line = true ∨ validate c line = true) (h : FirstMalformed c (n + 1) rest bad) :
    FirstMalformed c n (line :: rest) bad := by
  obtain ⟨number, hline, notComment, notValid, before⟩ := h
  have index : bad.number - n = bad.number - (n + 1) + 1 := by omega
  refine ⟨by omega, by rw [index]; exact hline, notComment, notValid, fun k l hk hl => ?_⟩
  cases k with
  | zero =>
    cases hl
    exact good
  | succ k => exact before k l (by omega) hl

theorem parseSource_error {c : Config} {n : Nat} {lines : List Text} {bad : BadLine}
    (h : parseSource c n lines = .error bad) : FirstMalformed c n lines bad := by
  induction lines generalizing n with
  | nil => cases h
  | cons line rest ih =>
    obtain ⟨notComment, notValid, rfl⟩ | ⟨good, later⟩ := parseSource_cons_error h
    · have head : n - n = 0 := Nat.sub_self n
      exact ⟨le_rfl, by rw [head]; rfl, notComment, notValid, fun k l (hk : k < n - n) => by omega⟩
    · exact (ih later).cons good

end Sys2Proof.Machine

namespace Sys2Proof.Proofs

open Sys2Proof.Machine

/-- Settles O5: a parsed object carries the code of its own pair. -/
theorem parsedLineDecodesToItsPair : Obligations.ParsedLineDecodesToItsPair := by
  refine fun c line => ⟨fun ins h => ?_, validate_iff c line⟩
  obtain ⟨parsed, text⟩ := parse_parsed h
  exact ⟨parsed.decode, parsed, text⟩

/-- Settles O8, by induction on the lines: a comment or a line that parses hands the search to the rest. -/
theorem badSourceNamesItsFirstMalformedLine : Obligations.BadSourceNamesItsFirstMalformedLine := by
  intro c lines bad h
  obtain ⟨number, line, notComment, notValid, before⟩ := parseSource_error h
  exact ⟨number, line, notComment, notValid, before⟩

end Sys2Proof.Proofs
end

section
/-! Proofs: trimming, tokens and the words of a line (30_encoding.md R111 to R114, R119). -/

namespace Sys2Proof.Machine

/-! ## Characters and words -/

/-- A character that no trimming removes and no separator test matches. -/
def isTokenChar (c : Char) : Bool := !isWhite c && !isSeparator c

theorem isTokenChar_iff (c : Char) : isTokenChar c = true ↔ isWhite c = false ∧ isSeparator c = false := by
  simp [isTokenChar]

/-- The separators and the white space are all below the digits, the signs and the letters, but for the comma. -/
theorem isTokenChar_of_toNat {c : Char} (h : 33 ≤ c.toNat) (hc : c.toNat ≠ 44) : isTokenChar c = true := by
  have sep (d : Char) (hd : d.toNat ≤ 32 ∨ d.toNat = 44) : c ≠ d := by
    rintro rfl
    omega
  have white : isWhite c = false := by
    simp only [isWhite, Bool.or_eq_false_iff, beq_eq_false_iff_ne, Bool.and_eq_false_iff, decide_eq_false_iff_not]
    omega
  have separator : isSeparator c = false := by
    simp only [isSeparator, Bool.or_eq_false_iff, beq_eq_false_iff_ne]
    exact ⟨⟨sep ' ' (by decide), sep '\t' (by decide)⟩, sep ',' (by decide)⟩
  exact (isTokenChar_iff c).mpr ⟨white, separator⟩

/-- A token: one or more token characters. -/
def IsWord (w : Text) : Prop := w ≠ [] ∧ ∀ c ∈ w, isTokenChar c = true

/-- A gap between tokens: one or more separators. -/
def IsGap (g : Text) : Prop := g ≠ [] ∧ ∀ c ∈ g, isSeparator c = true

/-! ## Tokens -/

theorem tokensFrom_word (p : Text) {w : Text} (hw : ∀ c ∈ w, isTokenChar c = true) (rest : Text) :
    tokensFrom p (w ++ rest) = tokensFrom (w.reverse ++ p) rest := by
  induction w generalizing p with
  | nil => rfl
  | cons c w ih =>
    obtain ⟨_, separator⟩ := (isTokenChar_iff c).mp (hw c (List.mem_cons_self ..))
    rw [List.cons_append, tokensFrom, if_neg (ne_true_of_eq_false separator),
      ih (c :: p) fun d hd => hw d (List.mem_cons_of_mem _ hd)]
    simp

theorem tokensFrom_separators {g : Text} (hg : ∀ c ∈ g, isSeparator c = true) (rest : Text) :
    tokensFrom [] (g ++ rest) = tokensFrom [] rest := by
  induction g with
  | nil => rfl
  | cons c g ih =>
    rw [List.cons_append, tokensFrom, if_pos (hg c (List.mem_cons_self ..)), if_pos rfl]
    exact ih fun d hd => hg d (List.mem_cons_of_mem _ hd)

/-- A word and the gap after it are the first token. -/
theorem tokensFrom_word_gap {w g : Text} (hw : IsWord w) (hg : IsGap g) (rest : Text) :
    tokensFrom [] (w ++ g ++ rest) = w :: tokensFrom [] rest := by
  obtain ⟨nonempty, chars⟩ := hw
  obtain ⟨gapNonempty, separators⟩ := hg
  cases g with
  | nil => exact absurd rfl gapNonempty
  | cons c g =>
    rw [List.append_assoc, tokensFrom_word [] chars, List.append_nil, List.cons_append, tokensFrom,
      if_pos (separators c (List.mem_cons_self ..)), if_neg (by simpa using nonempty), List.reverse_reverse,
      tokensFrom_separators fun d hd => separators d (List.mem_cons_of_mem _ hd)]

theorem tokensFrom_last_word {w : Text} (hw : IsWord w) : tokensFrom [] w = [w] := by
  obtain ⟨nonempty, chars⟩ := hw
  have whole := tokensFrom_word [] chars []
  rw [List.append_nil, List.append_nil] at whole
  rw [whole, tokensFrom, if_neg (by simpa using nonempty), List.reverse_reverse]

/-! ## Trimming -/

theorem dropWhile_isWhite_word {lead w : Text} (hl : ∀ c ∈ lead, isWhite c = true) (hw : IsWord w) (rest : Text) :
    (lead ++ (w ++ rest)).dropWhile isWhite = w ++ rest := by
  obtain ⟨nonempty, chars⟩ := hw
  cases w with
  | nil => exact absurd rfl nonempty
  | cons c w =>
    obtain ⟨white, _⟩ := (isTokenChar_iff c).mp (chars c (List.mem_cons_self ..))
    rw [List.dropWhile_append_of_pos hl, List.cons_append, List.dropWhile_cons_of_neg (ne_true_of_eq_false white)]

theorem IsWord.reverse {w : Text} (h : IsWord w) : IsWord w.reverse := by
  obtain ⟨nonempty, chars⟩ := h
  exact ⟨fun hr => nonempty (List.reverse_eq_nil_iff.mp hr), fun c hc => chars c (List.mem_reverse.mp hc)⟩

/-- Trimming removes the white space around a text that begins and ends with a word. -/
theorem trim_words {lead w mid w' trail : Text} (hl : ∀ c ∈ lead, isWhite c = true) (hw : IsWord w) (hw' : IsWord w')
    (ht : ∀ c ∈ trail, isWhite c = true) : trim (lead ++ (w ++ (mid ++ (w' ++ trail)))) = w ++ (mid ++ w') := by
  have back : (w ++ (mid ++ (w' ++ trail))).reverse = trail.reverse ++ (w'.reverse ++ (mid.reverse ++ w.reverse)) := by
    simp only [List.reverse_append, List.append_assoc]
  rw [trim, dropWhile_isWhite_word hl hw, back,
    dropWhile_isWhite_word (fun c hc => ht c (List.mem_reverse.mp hc)) hw'.reverse]
  simp only [List.reverse_append, List.reverse_reverse, List.append_assoc]

theorem tokens_two {lead w g w' trail : Text} (hl : ∀ c ∈ lead, isWhite c = true) (hw : IsWord w) (hg : IsGap g)
    (hw' : IsWord w') (ht : ∀ c ∈ trail, isWhite c = true) : tokens (lead ++ w ++ g ++ w' ++ trail) = [w, w'] := by
  have trimmed := trim_words (mid := g) hl hw hw' ht
  rw [tokens, List.append_assoc, List.append_assoc, List.append_assoc, trimmed, ← List.append_assoc,
    tokensFrom_word_gap hw hg, tokensFrom_last_word hw']

theorem tokens_three {w g w' g' w'' : Text} (hw : IsWord w) (hg : IsGap g) (hw' : IsWord w') (hg' : IsGap g')
    (hw'' : IsWord w'') : tokens (w ++ g ++ (w' ++ g' ++ w'')) = [w, w', w''] := by
  have noWhite : ∀ c ∈ ([] : Text), isWhite c = true := nofun
  have trimmed := trim_words (mid := g ++ (w' ++ g')) noWhite hw hw'' noWhite
  simp only [List.nil_append, List.append_nil, List.append_assoc] at trimmed
  rw [tokens, List.append_assoc, List.append_assoc, trimmed, ← List.append_assoc, ← List.append_assoc w',
    tokensFrom_word_gap hw hg, tokensFrom_word_gap hw' hg', tokensFrom_last_word hw'']

/-! ## The words of operations and registers -/

/-- An operation or register name is made of capital letters. -/
theorem isWord_of_map_upper {w name : Text} (h : w.map upper = name) (hne : name ≠ [])
    (hletters : ∀ c ∈ name, 65 ≤ c.toNat) : IsWord w := by
  subst h
  refine ⟨fun hw => hne (by rw [hw]; rfl), fun c hc => ?_⟩
  have letter := hletters (upper c) (List.mem_map_of_mem hc)
  have above : 65 ≤ c.toNat := by
    unfold upper at letter
    split at letter <;> omega
  exact isTokenChar_of_toNat (by omega) (by omega)

theorem isWord_of_opName {w : Text} {op : Operation} (h : w.map upper = opName op) : IsWord w :=
  isWord_of_map_upper h (by cases op <;> nofun) (by cases op <;> simp [opName])

theorem isWord_of_regName {w : Text} {r : Reg} (h : w.map upper = regName r) : IsWord w :=
  isWord_of_map_upper h (by cases r <;> nofun) (by cases r <;> simp [regName])

theorem opName_map_upper (op : Operation) : (opName op).map upper = opName op := by cases op <;> rfl

theorem regName_map_upper (r : Reg) : (regName r).map upper = regName r := by cases r <;> rfl

theorem opOfToken_of_opName {w : Text} {op : Operation} (h : w.map upper = opName op) : opOfToken w = some op := by
  rw [opOfToken, h]
  cases op <;> rfl

theorem regOfToken_of_regName {w : Text} {r : Reg} (h : w.map upper = regName r) : regOfToken w = some r := by
  rw [regOfToken, h]
  cases r <;> rfl

theorem assemble_of_names (line : Text) {o r' : Text} {op : Operation} {r : Reg} (ho : o.map upper = opName op)
    (hr : r'.map upper = regName r) (imm : Option Int) :
    assemble line o r' imm = .ok { op := op, reg := r, imm := imm, code := encodeOp op r, text := line } := by
  rw [assemble, opOfToken_of_opName ho, regOfToken_of_regName hr]

theorem parse_of_two_tokens (c : Config) {line o r : Text} (h : tokens line = [o, r]) :
    parse c line = assemble line o r none := by
  simp only [parse, h]

/-! ## Immediates -/

theorem digitValue_isSome {c : Char} (h : (digitValue c).isSome = true) : 48 ≤ c.toNat ∧ c.toNat ≤ 57 := by
  unfold digitValue at h
  split at h
  · assumption
  · cases h

theorem digitsValue_chars {acc n : Nat} {ds : Text} (h : digitsValue acc ds = some n) :
    ∀ c ∈ ds, 48 ≤ c.toNat ∧ c.toNat ≤ 57 := by
  induction ds generalizing acc with
  | nil => nofun
  | cons d ds ih =>
    rw [digitsValue] at h
    split at h
    · cases h
    · next hd => exact List.forall_mem_cons.mpr ⟨digitValue_isSome (Option.isSome_of_eq_some hd), ih h⟩

/-- The three spellings of an integer with the digits of `n` (30_encoding.md R114, 92_eei_decisions.md D27). -/
def Spells (n : Nat) (sign : Text) (v : Int) : Prop :=
  (sign = [] ∧ v = n) ∨ (sign = ['+'] ∧ v = n) ∨ (sign = ['-'] ∧ v = -(n : Int))

theorem integerValue_of_spells {n : Nat} {digits sign : Text} {v : Int} (hne : digits ≠ [])
    (hdigits : digitsValue 0 digits = some n) (hsign : Spells n sign v) : integerValue (sign ++ digits) = some v := by
  cases digits with
  | nil => exact absurd rfl hne
  | cons d ds =>
    have unsigned : unsignedValue (d :: ds) = some n := hdigits
    obtain ⟨rfl, rfl⟩ | ⟨rfl, rfl⟩ | ⟨rfl, rfl⟩ := hsign
    · have digit := digitsValue_chars hdigits d (List.mem_cons_self ..)
      have notSign (x : Char) (hx : x.toNat < 48) : d ≠ x := by
        rintro rfl
        omega
      rw [List.nil_append, integerValue, if_neg (notSign '-' (by decide)), if_neg (notSign '+' (by decide)), unsigned]
      rfl
    · rw [List.singleton_append, integerValue, if_neg (by decide), if_pos rfl, unsigned]
      rfl
    · rw [List.singleton_append, integerValue, if_pos rfl, unsigned]
      rfl

theorem isWord_of_spells {n : Nat} {digits sign : Text} {v : Int} (hne : digits ≠ [])
    (hdigits : digitsValue 0 digits = some n) (hsign : Spells n sign v) : IsWord (sign ++ digits) := by
  refine ⟨by simp [hne], List.forall_mem_append.mpr ⟨?_, fun c hc => ?_⟩⟩
  · obtain ⟨rfl, _⟩ | ⟨rfl, _⟩ | ⟨rfl, _⟩ := hsign <;> simp [isTokenChar, isWhite, isSeparator]
  · have digit := digitsValue_chars hdigits c hc
    exact isTokenChar_of_toNat (by omega) (by omega)

theorem parse_of_three_tokens (c : Config) {line o r t : Text} {op : Operation} {reg : Reg} {v : Int}
    (h : tokens line = [o, r, t]) (ho : o.map upper = opName op) (hr : r.map upper = regName reg)
    (hv : integerValue t = some v) : parse c line =
      if inSW c.width v = true then
        .ok { op := op, reg := reg, imm := some v, code := encodeOp op reg, text := line }
      else .error .badImmediate := by
  have value : immediateValue c t = if inSW c.width v = true then some v else none := by rw [immediateValue, hv]
  simp only [parse, h, assemble_of_names line ho hr, value]
  by_cases hin : inSW c.width v = true
  · simp only [if_pos hin]
  · simp only [if_neg hin]

end Sys2Proof.Machine

namespace Sys2Proof.Proofs

open Sys2Proof.Machine

/-- Settles O6: no letter is white space or a separator, so the two words come out as the tokens, and a token names what its
capital form names. -/
theorem twoTokenLinesAssemble : Obligations.TwoTokenLinesAssemble := by
  intro c op r lead opWord gap regWord trail hlead htrail hgap hseparators hop hreg
  have separators : IsGap gap := ⟨hgap, fun x hx => by obtain rfl | rfl | rfl := hseparators x hx <;> rfl⟩
  rw [parse_of_two_tokens c (tokens_two hlead (isWord_of_opName hop) separators (isWord_of_regName hreg) htrail)]
  exact assemble_of_names _ hop hreg none

/-- Settles O7: the third token is the sign and the digits, and its value decides whether the line parses. -/
theorem decimalImmediatesAssemble : Obligations.DecimalImmediatesAssemble := by
  intro c op r n digits hne hdigits sign v hsign
  have space : IsGap [' '] := ⟨nofun, by simp [isSeparator]⟩
  have comma : IsGap [',', ' '] := ⟨nofun, by simp [isSeparator]⟩
  have three := tokens_three (isWord_of_opName (opName_map_upper op)) space (isWord_of_regName (regName_map_upper r))
    comma (isWord_of_spells hne hdigits hsign)
  simp only [← List.append_assoc] at three
  exact parse_of_three_tokens c three (opName_map_upper op) (regName_map_upper r)
    (integerValue_of_spells hne hdigits hsign)

end Sys2Proof.Proofs
end
